-- ==== Sys2Proof/Word.lean ====
section
/-! DEFINITION. The byte and the 32-bit word (00_scope.md R7). -/

namespace Sys2Proof

/-- A byte, `b[7:0]` (00_scope.md R7). -/
abbrev Byte := BitVec 8

/-- A 32-bit word, `w[31:0]`, bit 0 the least significant (00_scope.md R7). -/
abbrev Word := BitVec 32

end Sys2Proof
end

