-- ==== Sys2Proof/Config.lean ====
section
/-! DEFINITION. The implementation parameters (00_scope.md R6), the OPEN one among them, and the free
values that stand where the spec gives none (93_implementation_defined.md U6). -/

namespace Sys2Proof.Config

/-- `BLOCK_WORDS` (00_scope.md R6). -/
abbrev blockWords : Nat := 16

/-- `BLOCK_BYTES` (00_scope.md R6). -/
abbrev blockBytes : Nat := 64

/-- `SCHED_WORDS` (00_scope.md R6). -/
abbrev schedWords : Nat := 80

/-- `HASH_WORDS` (00_scope.md R6). -/
abbrev hashWords : Nat := 5

/-- `DIGEST_BYTES` (00_scope.md R6). -/
abbrev digestBytes : Nat := 20

/-- `STEPS_PER_ROUND` (00_scope.md R6); the four `ROUNDS` make the 80 steps. -/
abbrev stepsPerRound : Nat := 20

/-- `LENGTH_POSITION_WORDS` (00_scope.md R6). -/
abbrev lengthPositionWords : Nat := 14

/-- `MAX_BUF_LEN`, the largest sequence length (00_scope.md R6). -/
abbrev maxBufLen : Nat := 2 ^ 31 - 1

/-- `MAX_BYTECOUNT` (00_scope.md R6, 10_state.md R32). -/
abbrev maxByteCount : Nat := 2 ^ 61 - 1

/-- `N_INSTANCES` is OPEN and at least 1 (92_eei_decisions.md D23): this is how many engines the platform
has beyond instance 0. No value can be proved of it. Log 9. -/
opaque extraInstances : Nat

/-- `N_INSTANCES` (00_scope.md R6). -/
def nInstances : Nat := extraInstances + 1

/-- A free 32-bit value: what transient word number `elem` holds after the `n`-th command boundary at
which the transient state lost its value (10_state.md R20, 93_implementation_defined.md U6). Log 1. -/
opaque freeWord (n elem : Nat) : Word

/-- The free value of the step counter `t` after boundary `n` (93_implementation_defined.md U6). Log 1. -/
opaque freeStepCounter (n : Nat) : BitVec 7

/-- The free value of `BL` after boundary `n` (93_implementation_defined.md U6). Log 1. -/
opaque freeBitLength (n : Nat) : BitVec 64

end Sys2Proof.Config
end

