-- ==== Sys2Proof/Syntax.lean ====
section
/-! DEFINITION. The command set as syntax: one constructor per row of the opcode table
(30_encoding.md R75), each with the operands of its operand record (30_encoding.md R73). -/

namespace Sys2Proof

/-- A sequence operand `SRC` or `DST`: `len` bytes of host memory from `base` on. The block sees only the
bytes and the length; where they live is the host's business (20_memory.md R61). Log 4. -/
structure Seq where
  base : Nat
  len : Nat
deriving DecidableEq, Repr

/-- The context record CTX, with the widths of 30_encoding.md R83. -/
structure Context where
  h : Vector Word 5
  xbuf : Vector Byte 4
  xbufOff : BitVec 8
  w : Vector Word 16
  xoff : BitVec 8
  byteCount : BitVec 64
deriving DecidableEq, Repr

/-- The eight commands (30_encoding.md R75) with their operands (30_encoding.md R72, R73); `off`, `len` and
`doff` are int32. -/
inductive Instr where
  | update (imm8 : Byte)
  | blockUpdate (src : Seq) (off len : BitVec 32)
  | doFinal (dst : Seq) (doff : BitVec 32)
  | reset
  | digestSize
  | algorithmName
  | ctxSave
  | ctxLoad (ctxin : Context)
deriving DecidableEq, Repr

end Sys2Proof
end

