-- ==== Sys2Proof/WellFormed.lean ====
section
/-! DEFINITION. Which commands the interface admits: a sequence operand has at most `MAX_BUF_LEN` bytes
(30_encoding.md R73); every other operand is well-formed by its type. -/

namespace Sys2Proof

/-- A sequence length is in `0 .. MAX_BUF_LEN` (30_encoding.md R73, 20_memory.md R50). -/
abbrev Seq.WellFormed (q : Seq) : Prop := q.len ≤ Config.maxBufLen

/-- Each constructor's admissible operands (30_encoding.md R73). -/
def Instr.wellFormed : Instr → Bool
  | .update _ => true
  | .blockUpdate src _ _ => decide src.WellFormed
  | .doFinal dst _ => decide dst.WellFormed
  | .reset => true
  | .digestSize => true
  | .algorithmName => true
  | .ctxSave => true
  | .ctxLoad _ => true

/-- The check as a proposition. -/
abbrev Instr.WellFormed (i : Instr) : Prop := i.wellFormed = true

end Sys2Proof
end

