-- ==== Sys2Proof/Decode.lean ====
section
/-! DEFINITION. Decoding a command word with its operand record (30_encoding.md R71 to R78), total on all
words, and the encoder written from the same table. -/

namespace Sys2Proof

/-- The opcodes of 30_encoding.md R75. -/
inductive Opcode where
  | update | blockUpdate | doFinal | reset | digestSize | algorithmName | ctxSave | ctxLoad
deriving DecidableEq, Repr

/-- The operand record, whose shape depends on the opcode (30_encoding.md R73). -/
inductive Operands where
  | empty
  | range (src : Seq) (off len : BitVec 32)
  | output (dst : Seq) (doff : BitVec 32)
  | context (ctxin : Context)
deriving DecidableEq, Repr

/-- The command's opcode and `IMM8`: all that the command word says. -/
structure Head where
  op : Opcode
  imm8 : Byte
deriving DecidableEq, Repr

/-- Why a transaction with a legal command word is no command of the interface (30_encoding.md R73). -/
inductive Rejection where
  /-- The operand record does not have the opcode's shape. -/
  | operandShape
  /-- A sequence longer than `MAX_BUF_LEN`: not representable (93_implementation_defined.md U15). -/
  | sequenceTooLong
deriving DecidableEq, Repr

/-- The three answers of the decoder. -/
inductive Decoded where
  | illegal
  | rejected (why : Rejection)
  | command (i : Instr)
deriving DecidableEq, Repr

/-- `OP` of each opcode (30_encoding.md R75). -/
def Opcode.nibble : Opcode → BitVec 4
  | .update => 0x1
  | .blockUpdate => 0x2
  | .doFinal => 0x3
  | .reset => 0x4
  | .digestSize => 0x5
  | .algorithmName => 0x6
  | .ctxSave => 0x7
  | .ctxLoad => 0x8

/-- A row of the opcode map: a word selects it when `CMD & mask = pattern` (30_encoding.md R75). -/
structure Row where
  op : Opcode
  pattern : BitVec 32
  mask : BitVec 32
deriving DecidableEq, Repr

/-- The opcode map, row by row (30_encoding.md R75). -/
def opcodeMap : List Row :=
  [⟨.update, 0x10000000, 0xFFFFFF00⟩, ⟨.blockUpdate, 0x20000000, 0xFFFFFFFF⟩,
   ⟨.doFinal, 0x30000000, 0xFFFFFFFF⟩, ⟨.reset, 0x40000000, 0xFFFFFFFF⟩,
   ⟨.digestSize, 0x50000000, 0xFFFFFFFF⟩, ⟨.algorithmName, 0x60000000, 0xFFFFFFFF⟩,
   ⟨.ctxSave, 0x70000000, 0xFFFFFFFF⟩, ⟨.ctxLoad, 0x80000000, 0xFFFFFFFF⟩]

/-- `CMD & mask = match` (30_encoding.md R75). -/
abbrev Row.Selects (r : Row) (cmd : BitVec 32) : Prop := cmd &&& r.mask = r.pattern

/-- `CMD[31:28]` (30_encoding.md R71). -/
def opField (cmd : BitVec 32) : BitVec 4 := cmd.extractLsb' 28 4

/-- `CMD[27:8]` (30_encoding.md R71). -/
def rsvField (cmd : BitVec 32) : BitVec 20 := cmd.extractLsb' 8 20

/-- `CMD[7:0]`, used as an unsigned byte with no extension, scaling or shift (30_encoding.md R71, R72). -/
def immField (cmd : BitVec 32) : Byte := cmd.extractLsb' 0 8

/-- The opcode a nibble assigns; `0x0` and `0x9`..`0xF` are reserved (30_encoding.md R75, R77). -/
def opcodeOf (op : BitVec 4) : Option Opcode :=
  match op.toNat with
  | 1 => some .update
  | 2 => some .blockUpdate
  | 3 => some .doFinal
  | 4 => some .reset
  | 5 => some .digestSize
  | 6 => some .algorithmName
  | 7 => some .ctxSave
  | 8 => some .ctxLoad
  | _ => none

/-- The pseudocode of 30_encoding.md R76; `none` is `ILLEGAL`. -/
def decodeWord (cmd : BitVec 32) : Option Head :=
  match opcodeOf (opField cmd) with
  | none => none
  | some op =>
    if rsvField cmd ≠ 0 then none
    else if op ≠ .update ∧ immField cmd ≠ 0 then none
    else some ⟨op, immField cmd⟩

/-- The command a legal word makes with an operand record of its shape (30_encoding.md R73, R78). -/
def Head.instr (hd : Head) (ops : Operands) : Option Instr :=
  match hd.op, ops with
  | .update, .empty => some (.update hd.imm8)
  | .blockUpdate, .range src off len => some (.blockUpdate src off len)
  | .doFinal, .output dst doff => some (.doFinal dst doff)
  | .reset, .empty => some .reset
  | .digestSize, .empty => some .digestSize
  | .algorithmName, .empty => some .algorithmName
  | .ctxSave, .empty => some .ctxSave
  | .ctxLoad, .context ctxin => some (.ctxLoad ctxin)
  | _, _ => none

/-- Decoding a transaction's command word and operand record: the word first, before any operand is
examined (30_encoding.md R76), then the record's shape and lengths (30_encoding.md R73; log 11). -/
def decode (cmd : BitVec 32) (ops : Operands) : Decoded :=
  match decodeWord cmd with
  | none => .illegal
  | some hd =>
    match hd.instr ops with
    | none => .rejected .operandShape
    | some i => if i.wellFormed then .command i else .rejected .sequenceTooLong

/-- The opcode of a command. -/
def Instr.opcode : Instr → Opcode
  | .update _ => .update
  | .blockUpdate _ _ _ => .blockUpdate
  | .doFinal _ _ => .doFinal
  | .reset => .reset
  | .digestSize => .digestSize
  | .algorithmName => .algorithmName
  | .ctxSave => .ctxSave
  | .ctxLoad _ => .ctxLoad

/-- `IMM8` of a command: zero outside UPDATE (30_encoding.md R71). -/
def Instr.imm8 : Instr → Byte
  | .update b => b
  | .blockUpdate _ _ _ => 0
  | .doFinal _ _ => 0
  | .reset => 0
  | .digestSize => 0
  | .algorithmName => 0
  | .ctxSave => 0
  | .ctxLoad _ => 0

/-- The operand record of a command (30_encoding.md R73). -/
def Instr.operands : Instr → Operands
  | .update _ => .empty
  | .blockUpdate src off len => .range src off len
  | .doFinal dst doff => .output dst doff
  | .reset => .empty
  | .digestSize => .empty
  | .algorithmName => .empty
  | .ctxSave => .empty
  | .ctxLoad ctxin => .context ctxin

/-- A command word with `OP` in bits `[31:28]`, zero in `[27:8]` and `IMM8` in `[7:0]` (30_encoding.md R71). -/
def commandWord (op : Opcode) (imm8 : Byte) : BitVec 32 := (op.nibble.setWidth 32 <<< 28) ||| imm8.setWidth 32

/-- The command word of a command (30_encoding.md R71, R75). -/
def encodeWord (i : Instr) : BitVec 32 := commandWord i.opcode i.imm8

/-- The command word and operand record of a command (30_encoding.md R70, R71, R73). -/
def encode (i : Instr) : BitVec 32 × Operands := (encodeWord i, i.operands)

/-- The context record all of whose fields are zero. -/
def Context.zero : Context :=
  { h := Vector.replicate 5 0, xbuf := Vector.replicate 4 0, xbufOff := 0,
    w := Vector.replicate 16 0, xoff := 0, byteCount := 0 }

/-- The operand record of the opcode's shape with every entry zero: what stands for the operands of a
table word, which has no bits for them (log 15). -/
def Opcode.zeroOperands : Opcode → Operands
  | .update => .empty
  | .blockUpdate => .range ⟨0, 0⟩ 0 0
  | .doFinal => .output ⟨0, 0⟩ 0
  | .reset => .empty
  | .digestSize => .empty
  | .algorithmName => .empty
  | .ctxSave => .empty
  | .ctxLoad => .context Context.zero

/-- The zero operand record of the shape a command word asks for (log 15). -/
def zeroOperands (cmd : BitVec 32) : Operands :=
  match decodeWord cmd with
  | none => .empty
  | some hd => hd.op.zeroOperands

/-- The command word with the low `nbits` bits of `w`; a command word is 32 bits (30_encoding.md R70, R78). -/
def tableWord (nbits w : Nat) : BitVec 32 := BitVec.ofNat 32 (w % 2 ^ nbits)

/-- The command the decoder reads from a word of the opcode table, its operand record zero (log 15). -/
def decodeTableWord (nbits w : Nat) : Option Instr :=
  if nbits ≤ 32 then
    match decode (tableWord nbits w) (zeroOperands (tableWord nbits w)) with
    | .illegal => none
    | .rejected _ => none
    | .command i => some i
  else none

end Sys2Proof
end

