-- ==== Sys2Proof/Machine/State.lean ====
section
/-! DEFINITION. The state: the engines of the platform with their architectural and transient state
(10_state.md), the host memory in which SRC and DST live (20_memory.md R50, R61), the commands the host has
issued and the responses it has received (30_encoding.md R70, R79). -/

namespace Sys2Proof.Machine

/-- The phases of the padding FSM (41_padding_fsm.md R124). -/
inductive Phase where
  | idle | finSentinel | finZero | finLength | finOutput | finReset
deriving DecidableEq, Repr

/-- The state of one engine instance (10_state.md R20): first the architectural elements, then the
transient ones. -/
structure Engine where
  /-- `H[0..4]`, the running hash state (10_state.md R21). -/
  h : Vector Word 5
  /-- `XBUF[0..3]`, pending bytes of the current word (10_state.md R22). -/
  xbuf : Vector Byte 4
  /-- `XBUF_OFF`, count of valid bytes in `XBUF` (10_state.md R23). -/
  xbufOff : BitVec 2
  /-- `W[0..15]`, words of the current block (10_state.md R24). -/
  w : Vector Word 16
  /-- `XOFF`, count of words in the current block (10_state.md R25). -/
  xoff : BitVec 5
  /-- `BYTECOUNT`, input bytes since reset (10_state.md R26). -/
  byteCount : BitVec 64
  /-- `A` (10_state.md R27). -/
  a : Word
  /-- `B` (10_state.md R27). -/
  b : Word
  /-- `C` (10_state.md R27). -/
  c : Word
  /-- `D` (10_state.md R27). -/
  d : Word
  /-- `E` (10_state.md R27). -/
  e : Word
  /-- `W[16..79]`, the expansion words: entry `i` is `W[16 + i]` (10_state.md R28). -/
  wx : Vector Word 64
  /-- The step counter `t` (10_state.md R29). -/
  t : BitVec 7
  /-- `BL`, the latched bit length (10_state.md R36). -/
  bl : BitVec 64
  /-- `PHASE` (10_state.md R29, 41_padding_fsm.md R124). -/
  phase : Phase
deriving DecidableEq, Repr

/-- The initial hash values (10_state.md R21, R34). -/
def initialHash : Vector Word 5 :=
  #v[0x67452301, 0xefcdab89, 0x98badcfe, 0x10325476, 0xc3d2e1f0]

/-- An engine after construction (10_state.md R34). The transient elements, to which the spec gives no
value, are zero: DESIGN CHOICE, unsafe, log 2. -/
def Engine.reset : Engine where
  h := initialHash
  xbuf := Vector.replicate 4 0
  xbufOff := 0
  w := Vector.replicate 16 0
  xoff := 0
  byteCount := 0
  a := 0
  b := 0
  c := 0
  d := 0
  e := 0
  wx := Vector.replicate 64 0
  t := 0
  bl := 0
  phase := .idle

/-- The status of a response (30_encoding.md R79). -/
inductive Status where
  | ok | outOfRange | illegalCommand | lengthOverflow | invalidContext
deriving DecidableEq, Repr

/-- The `DATA` of a response: none, a byte string or a context record (00_scope.md R11, 30_encoding.md R80). -/
inductive Data where
  | none
  | bytes (bs : List Byte)
  | context (k : Context)
deriving DecidableEq, Repr

/-- A response (00_scope.md R11), with the instance that gives it; `result` is an int32. -/
structure Response where
  inst : Nat
  status : Status
  result : BitVec 32
  data : Data
deriving DecidableEq, Repr

/-- How the host kept its duties for a command (70_reset_and_hazards.md R234, R235). Log 8. -/
inductive Conduct where
  /-- Both duties kept. -/
  | clean
  /-- Issued to an instance before its previous command had responded (R234). -/
  | overlapping
  /-- Another agent wrote `SRC`, or touched the destination bytes, while the command ran (R235). -/
  | bufferTouched
deriving DecidableEq, Repr

/-- A command the host has issued: the instance it goes to (30_encoding.md R81), its command word and
operand record (30_encoding.md R70). -/
structure Transaction where
  inst : Nat
  cmd : BitVec 32
  operands : Operands
  conduct : Conduct
deriving DecidableEq, Repr

/-- Host memory: the bytes that differ from what an unlisted address reads as, addresses strictly rising. -/
abbrev Memory := List Host.Cell

/-- The whole machine at a command boundary. -/
structure State where
  /-- The engine instances, instance 0 first (60_exceptions.md R211). -/
  engines : List Engine
  /-- Host memory, where the sequences SRC and DST live (20_memory.md R50, R61). Log 4. -/
  mem : Memory
  /-- Commands issued and not yet executed, oldest first (20_memory.md R63). Log 6. -/
  queue : List Transaction
  /-- The instance the command in execution is addressed to. Log 10. -/
  target : Nat
  /-- Responses returned to the host, oldest first; no command reads them (10_state.md R33). Log 13. -/
  responses : List Response
  /-- The model's own counter for free values. Log 3. -/
  free : Nat
deriving DecidableEq, Repr

/-- What stops the machine. The block itself has no trap (60_exceptions.md R207). -/
inductive Fault where
  /-- Raised by `MemRead` and `MemWrite` at an index outside their sequence, where they are not defined
  (00_scope.md R10). Every command checks its bounds first, so no command raises it. Safe. Log 12. -/
  | indexOutsideSequence
deriving DecidableEq, Repr

/-- What the model gives no meaning. -/
inductive Refusal where
  /-- Raised by an arm of `exec` whose instruction has no meaning yet; no arm does. Safe. -/
  | notModelled (mnemonic : String)
  /-- Raised by the fetch of either of two overlapping commands, the earlier one as well as the one issued
  before the earlier had responded: a run with overlapping commands has no meaning
  (70_reset_and_hazards.md R234). Safe. Log 8. -/
  | overlappingCommands
  /-- Raised by the fetch of a command whose buffer another agent touched while it ran
  (70_reset_and_hazards.md R235). Safe. Log 8. -/
  | bufferTouched
  /-- Raised for a command to an instance the platform does not have (30_encoding.md R81). Safe. Log 10. -/
  | noSuchInstance
  /-- Raised by the fetch of a transaction whose operand record is not the opcode's (30_encoding.md R73).
  Safe. Log 11. -/
  | operandShape
  /-- Raised by the fetch of a transaction with a sequence longer than `MAX_BUF_LEN`
  (93_implementation_defined.md U15). Safe. Log 11. -/
  | sequenceTooLong
deriving DecidableEq, Repr

/-- The machine after construction (70_reset_and_hazards.md R230, R233; 60_exceptions.md R211): every
instance in the reset state, no command issued, no response given. Host memory lists nothing (log 5);
`target` and `free` are the model's own (logs 3, 10). -/
def State.reset : State where
  engines := Engine.reset :: List.replicate Config.extraInstances Engine.reset
  mem := []
  queue := []
  target := 0
  responses := []
  free := 0

end Sys2Proof.Machine
end

