-- ==== Sys2Proof/Machine/Operands.lean ====
section
/-! DEFINITION. Reading operands: int32 values, byte order, the bytes of a sequence operand
(00_scope.md R7, R10; 20_memory.md R51 to R55; 30_encoding.md R74). -/

namespace Sys2Proof.Machine

/-- What an address that memory does not list reads as. DESIGN CHOICE, log 5. -/
def unlistedByte : Byte := 0

/-- The byte of host memory at an address. -/
def Memory.read : Memory → Nat → Byte
  | [], _ => unlistedByte
  | (x, v) :: rest, a => if a = x then v else Memory.read rest a

/-- Writing one byte of host memory, keeping addresses rising and no entry equal to the unlisted byte. -/
def Memory.write : Memory → Nat → Byte → Memory
  | [], a, v => if v = unlistedByte then [] else [(a, v)]
  | (x, u) :: rest, a, v =>
    if a < x then (if v = unlistedByte then (x, u) :: rest else (a, v) :: (x, u) :: rest)
    else if a = x then (if v = unlistedByte then rest else (a, v) :: rest)
    else (x, u) :: Memory.write rest a v

/-- An address lies above a bound (`none`: no bound). -/
def liesAbove : Option Nat → Nat → Bool
  | none, _ => true
  | some y, x => decide (y < x)

/-- The addresses of a list of cells rise strictly and all lie above `lo`; no entry is the unlisted byte. -/
def Memory.above : Option Nat → Memory → Bool
  | _, [] => true
  | lo, (x, v) :: rest => liesAbove lo x && decide (v ≠ unlistedByte) && Memory.above (some x) rest

/-- The canonical form: addresses strictly rising, no entry equal to what an unlisted address reads as. -/
def Memory.wf (m : Memory) : Bool := Memory.above none m

/-- `MemRead(SRC, i, 1)`: byte `i` of a sequence, defined for `0 <= i < length` only (00_scope.md R10,
20_memory.md R51). -/
def memRead (m : Memory) (q : Seq) (i : Nat) : Option Byte :=
  if i < q.len then some (m.read (q.base + i)) else none

/-- `MemWrite(DST, i, 1, v)`: writes byte `i` of a sequence, defined for `0 <= i < length` only
(00_scope.md R10, 20_memory.md R52). -/
def memWrite (m : Memory) (q : Seq) (i : Nat) (v : Byte) : Option Memory :=
  if i < q.len then some (m.write (q.base + i) v) else none

/-- The integer an int32 operand denotes, `sext(v)` (30_encoding.md R74). -/
def int32 (v : BitVec 32) : Int := v.toInt

/-- Input word assembly, `b0 ‖ b1 ‖ b2 ‖ b3` (20_memory.md R53). -/
def beWord (b0 b1 b2 b3 : Byte) : Word := b0 ++ b1 ++ b2 ++ b3

/-- Byte `k` of a word in output order, `w[31 - 8*k : 24 - 8*k]` (20_memory.md R55). -/
def outByte (w : Word) (k : Nat) : Byte := w.extractLsb' (24 - 8 * k) 8

/-- Byte `k` of the length field, `BL[63 - 8*k : 56 - 8*k]` (20_memory.md R54, 41_padding_fsm.md R121). -/
def lengthByte (bl : BitVec 64) (k : Nat) : Byte := bl.extractLsb' (56 - 8 * k) 8

/-- `"SHA-1"` as its five ASCII bytes (30_encoding.md R80, 43_control.md R162). -/
def algorithmNameBytes : List Byte := [0x53, 0x48, 0x41, 0x2D, 0x31]

end Sys2Proof.Machine
end

