-- ==== Sys2Proof/Machine/Flags.lean ====
section
/-! DEFINITION. The block has no condition flags and no status register (10_state.md R33). What stands in
their place is here: the status codes and the conditions under which a command raises a status
(30_encoding.md R79, 60_exceptions.md R201 to R204), with the invariants they protect (10_state.md R30 to
R32). -/

namespace Sys2Proof.Machine

/-- The 8-bit code of a status (30_encoding.md R79). -/
def Status.code : Status → BitVec 8
  | .ok => 0x00
  | .outOfRange => 0x01
  | .illegalCommand => 0x02
  | .lengthOverflow => 0x03
  | .invalidContext => 0x04

/-- BLOCK_UPDATE's range is not within `SRC`; the sum is in unbounded integers (40_digest_buffer.md R103,
60_exceptions.md R201, 30_encoding.md R74). -/
abbrev sourceOutOfRange (src : Seq) (off len : BitVec 32) : Prop :=
  int32 off < 0 ∨ int32 len < 0 ∨ int32 off + int32 len > src.len

/-- DO_FINAL's 20 output bytes are not within `DST` (41_padding_fsm.md R120, 60_exceptions.md R201). -/
abbrev outputOutOfRange (dst : Seq) (doff : BitVec 32) : Prop :=
  int32 doff < 0 ∨ int32 doff + 20 > dst.len

/-- UPDATE's overflow condition, `BYTECOUNT = MAX_BYTECOUNT` (40_digest_buffer.md R102, 60_exceptions.md
R203). -/
abbrev updateOverflows (byteCount : BitVec 64) : Prop := byteCount.toNat = Config.maxByteCount

/-- BLOCK_UPDATE's overflow condition, `BYTECOUNT + LEN > MAX_BYTECOUNT` (40_digest_buffer.md R103,
60_exceptions.md R203). -/
abbrev rangeOverflows (byteCount : BitVec 64) (len : BitVec 32) : Prop :=
  (byteCount.toNat : Int) + int32 len > Config.maxByteCount

/-- The condition under which CTX_LOAD refuses a record, clause by clause (43_control.md R164). -/
abbrev contextInvalid (k : Context) : Prop :=
  k.xbufOff.toNat > 3
  ∨ k.xoff.toNat > 15
  ∨ k.byteCount.toNat > Config.maxByteCount
  ∨ 4 * k.xoff.toNat + k.xbufOff.toNat ≠ k.byteCount.toNat % 64
  ∨ (∃ i : Fin 4, k.xbufOff.toNat ≤ i.val ∧ k.xbuf[i] ≠ 0)
  ∨ (∃ i : Fin 16, k.xoff.toNat ≤ i.val ∧ k.w[i] ≠ 0)

/-- The block position `4 * XOFF + XBUF_OFF` (10_state.md R30). -/
def Engine.position (g : Engine) : Nat := 4 * g.xoff.toNat + g.xbufOff.toNat

/-- `XOFF` is in `0..15` at a command boundary (10_state.md R25); `XBUF_OFF` is in `0..3` by its width. -/
abbrev Engine.OffsetsInRange (g : Engine) : Prop := g.xoff.toNat ≤ 15

/-- The position invariant (10_state.md R30). -/
abbrev Engine.PositionInvariant (g : Engine) : Prop := g.position = g.byteCount.toNat % 64

/-- The zero invariant (10_state.md R31). -/
abbrev Engine.ZeroInvariant (g : Engine) : Prop :=
  (∀ i : Fin 4, g.xbufOff.toNat ≤ i.val → g.xbuf[i] = 0) ∧
  (∀ i : Fin 16, g.xoff.toNat ≤ i.val → g.w[i] = 0)

/-- The counter invariant (10_state.md R32). -/
abbrev Engine.CounterInvariant (g : Engine) : Prop := g.byteCount.toNat ≤ Config.maxByteCount

end Sys2Proof.Machine
end

