-- ==== Sys2Proof/Machine/Ops.lean ====
section
/-! DEFINITION. The named operations over an engine's registers and over the command interface: the word
file, RESET_STATE, the context record, responding and raising (00_scope.md R9, R11; 10_state.md R20, R34). -/

namespace Sys2Proof.Machine

/-- `W[i]` of the word file `W[0..79]` (20_memory.md R50 (a)). -/
def Engine.getW (g : Engine) (i : Nat) : Word :=
  if i < 16 then g.w[i]?.getD 0 else g.wx[i - 16]?.getD 0

/-- `W[i] <- v` (20_memory.md R50 (a)). -/
def Engine.setW (g : Engine) (i : Nat) (v : Word) : Engine :=
  if i < 16 then { g with w := g.w.setIfInBounds i v }
  else { g with wx := g.wx.setIfInBounds (i - 16) v }

/-- RESET_STATE: every architectural element to its reset value, the FSM idle (70_reset_and_hazards.md
R231, 41_padding_fsm.md R126). The transient elements lose their value at the command's end, `release`. -/
def Engine.resetState (g : Engine) : Engine :=
  { g with
    h := initialHash, xbuf := Vector.replicate 4 0, xbufOff := 0, w := Vector.replicate 16 0,
    xoff := 0, byteCount := 0, phase := .idle }

/-- The transient elements lose their value at a command boundary (10_state.md R20): each is free value
number `n`. Log 1. -/
def Engine.release (g : Engine) (n : Nat) : Engine :=
  { g with
    a := Config.freeWord n 0, b := Config.freeWord n 1, c := Config.freeWord n 2,
    d := Config.freeWord n 3, e := Config.freeWord n 4,
    wx := Vector.ofFn fun i : Fin 64 => Config.freeWord n (16 + i.val),
    t := Config.freeStepCounter n, bl := Config.freeBitLength n }

/-- The context record of an engine: its architectural state (30_encoding.md R83, 43_control.md R163). -/
def Engine.context (g : Engine) : Context :=
  { h := g.h, xbuf := g.xbuf, xbufOff := g.xbufOff.setWidth 8, w := g.w, xoff := g.xoff.setWidth 8,
    byteCount := g.byteCount }

/-- The architectural state from a record (43_control.md R164). -/
def Engine.loadContext (g : Engine) (k : Context) : Engine :=
  { g with
    h := k.h, xbuf := k.xbuf, xbufOff := k.xbufOff.setWidth 2, w := k.w, xoff := k.xoff.setWidth 5,
    byteCount := k.byteCount }

/-- The engine the command in execution is addressed to. -/
def State.engine? (s : State) : Option Engine := s.engines[s.target]?

/-- `respond(OK, RESULT, DATA)` of a command that writes no state (00_scope.md R11). -/
def State.answer (s : State) (result : BitVec 32) (data : Data) : State :=
  { s with responses := s.responses ++ [⟨s.target, .ok, result, data⟩] }

/-- `respond(OK, RESULT, DATA)` of a command that leaves its engine in state `g` (00_scope.md R11); its
transient elements lose their value at this command boundary (10_state.md R20; log 1). -/
def State.commit (s : State) (g : Engine) (result : BitVec 32) (data : Data) : State :=
  { s with
    engines := s.engines.set s.target (g.release s.free), free := s.free + 1,
    responses := s.responses ++ [⟨s.target, .ok, result, data⟩] }

/-- `raise <Status>`: this machine's one exception mechanism. The command ends with that status,
`RESULT = 0`, no data, and no change to any state or destination byte (00_scope.md R11, 60_exceptions.md
R200). Nothing is saved and control does not change, so there is no return from it (60_exceptions.md R207). -/
def State.raise (s : State) (st : Status) : State :=
  { s with responses := s.responses ++ [⟨s.target, st, 0, .none⟩] }

/-- Runs a meaning on the addressed engine; a command to an instance the platform does not have is refused
(30_encoding.md R81; log 10). -/
def State.onEngine (s : State) (k : Engine → Host.Outcome State Fault Refusal) :
    Host.Outcome State Fault Refusal :=
  match s.engine? with
  | none => .refused .noSuchInstance
  | some g => k g

end Sys2Proof.Machine
end

