-- ==== Sys2Proof/Machine/Control.lean ====
section
/-! DEFINITION. The control commands RESET, DIGEST_SIZE, ALGORITHM_NAME, CTX_SAVE and CTX_LOAD
(43_control.md). -/

namespace Sys2Proof.Machine

/-- RESET (43_control.md R160). -/
def execReset (s : State) : Host.Outcome State Fault Refusal :=
  s.onEngine fun g => .next (s.commit g.resetState 0 .none)

/-- DIGEST_SIZE (43_control.md R161). -/
def execDigestSize (s : State) : Host.Outcome State Fault Refusal :=
  s.onEngine fun _ => .next (s.answer 20 .none)

/-- ALGORITHM_NAME (43_control.md R162). -/
def execAlgorithmName (s : State) : Host.Outcome State Fault Refusal :=
  s.onEngine fun _ => .next (s.answer 5 (.bytes algorithmNameBytes))

/-- CTX_SAVE (43_control.md R163). -/
def execCtxSave (s : State) : Host.Outcome State Fault Refusal :=
  s.onEngine fun g => .next (s.answer 0 (.context g.context))

/-- CTX_LOAD (43_control.md R164). -/
def execCtxLoad (ctxin : Context) (s : State) : Host.Outcome State Fault Refusal :=
  s.onEngine fun g =>
    if contextInvalid ctxin then .next (s.raise .invalidContext)
    else .next (s.commit (g.loadContext ctxin) 0 .none)

end Sys2Proof.Machine
end

