-- ==== Sys2Proof/Machine/Compression.lean ====
section
/-! DEFINITION. The compression function PROCESS_BLOCK (42_compression.md). The operands and permutation
of R145 to R147 are the spec's, which marks them as taken from FIPS 180-4 (log 17). -/

namespace Sys2Proof.Machine

/-- `ROTL_n(a)`, `0 < n < 32` (00_scope.md R8). -/
def rotl (n : Nat) (a : Word) : Word := (a <<< n) ||| (a >>> (32 - n))

/-- The mixing function `F` (42_compression.md R142). -/
def mixF (u v w : Word) : Word := (u &&& v) ||| (~~~u &&& w)

/-- The mixing function `P`, the source's `H` (42_compression.md R142). -/
def mixP (u v w : Word) : Word := u ^^^ v ^^^ w

/-- The mixing function `G` (42_compression.md R142). -/
def mixG (u v w : Word) : Word := (u &&& v) ||| (u &&& w) ||| (v &&& w)

/-- `f_t`: the function of step `t`'s round (42_compression.md R143). -/
def roundFunction (t : Nat) : Word → Word → Word → Word :=
  if t < 20 then mixF else if t < 40 then mixP else if t < 60 then mixG else mixP

/-- `K_t`: the constant of step `t`'s round (42_compression.md R143). -/
def roundConstant (t : Nat) : Word :=
  if t < 20 then 0x5a827999 else if t < 40 then 0x6ed9eba1 else if t < 60 then 0x8f1bbcdc else 0xca62c1d6

/-- One word of EXPAND: `W[i] <- ROTL_1(W[i-3] xor W[i-8] xor W[i-14] xor W[i-16])` (42_compression.md R141). -/
def Engine.expandWord (g : Engine) (i : Nat) : Engine :=
  g.setW i (rotl 1 (g.getW (i - 3) ^^^ g.getW (i - 8) ^^^ g.getW (i - 14) ^^^ g.getW (i - 16)))

/-- EXPAND, `i` from 16 to 79 (42_compression.md R141). -/
@[irreducible] def Engine.expand (g : Engine) : Engine := (List.range' 16 64).foldl Engine.expandWord g

/-- `(A, B, C, D, E) <- (H[0], H[1], H[2], H[3], H[4])` (42_compression.md R145). -/
def Engine.initWorking (g : Engine) : Engine :=
  { g with a := g.h[0], b := g.h[1], c := g.h[2], d := g.h[3], e := g.h[4] }

/-- STEP(t) for the value the step counter holds (42_compression.md R146). -/
def Engine.roundStep (g : Engine) : Engine :=
  { g with
    e := g.d, d := g.c, c := rotl 30 g.b, b := g.a,
    a := rotl 5 g.a + roundFunction g.t.toNat g.b g.c g.d + g.e + roundConstant g.t.toNat + g.getW g.t.toNat }

/-- STEP(k): the counter takes the value `k` and the step runs (42_compression.md R140, 10_state.md R29). -/
def Engine.stepAt (g : Engine) (k : Nat) : Engine :=
  Engine.roundStep { g with t := BitVec.ofNat 7 k }

/-- The 80 steps, `t` from 0 to 79 (42_compression.md R140). -/
@[irreducible] def Engine.rounds (g : Engine) : Engine := (List.range 80).foldl Engine.stepAt g

/-- FEED_FORWARD, modulo 2^32 (42_compression.md R147). -/
def Engine.feedForward (g : Engine) : Engine :=
  { g with h := #v[g.h[0] + g.a, g.h[1] + g.b, g.h[2] + g.c, g.h[3] + g.d, g.h[4] + g.e] }

/-- PROCESS_BLOCK (42_compression.md R140). -/
def Engine.processBlock (g : Engine) : Engine := g.expand.initWorking.rounds.feedForward

end Sys2Proof.Machine
end

