-- ==== Sys2Proof/Machine/DigestBuffer.lean ====
section
/-! DEFINITION. The digest buffer: ABSORB, PROCESS_WORD, and the commands UPDATE and BLOCK_UPDATE
(40_digest_buffer.md). -/

namespace Sys2Proof.Machine

/-- The dispatch of a full block: PROCESS_BLOCK, then a new, empty block (40_digest_buffer.md R101). -/
def Engine.dispatchBlock (g : Engine) : Engine :=
  { g.processBlock with w := Vector.replicate 16 0, xoff := 0 }

/-- `W[XOFF] <- w; XOFF <- XOFF + 1` (40_digest_buffer.md R101). -/
def Engine.storeWord (g : Engine) (w : Word) : Engine :=
  { g.setW g.xoff.toNat w with xoff := g.xoff + 1 }

/-- PROCESS_WORD(w) (40_digest_buffer.md R101). -/
def Engine.processWord (g : Engine) (w : Word) : Engine :=
  if g.xoff + 1 = 16 then (g.storeWord w).dispatchBlock else g.storeWord w

/-- The word `XBUF[0] ‖ XBUF[1] ‖ XBUF[2] ‖ XBUF[3]` (40_digest_buffer.md R100, 20_memory.md R53). -/
def Engine.bufferWord (g : Engine) : Word := beWord g.xbuf[0] g.xbuf[1] g.xbuf[2] g.xbuf[3]

/-- `XBUF[XBUF_OFF] <- b` (40_digest_buffer.md R100). -/
def Engine.storeByte (g : Engine) (b : Byte) : Engine :=
  { g with xbuf := g.xbuf.setIfInBounds g.xbufOff.toNat b }

/-- The assembly buffer emptied: its bytes zero, `XBUF_OFF` zero (40_digest_buffer.md R100). -/
def Engine.clearBuffer (g : Engine) : Engine := { g with xbuf := Vector.replicate 4 0, xbufOff := 0 }

/-- ABSORB(b) (40_digest_buffer.md R100). The instant at which `XBUF_OFF` is 4 is the test
`XBUF_OFF + 1 = 4` (10_state.md R23, 90_conflicts.md C2). -/
def Engine.absorb (g : Engine) (b : Byte) : Engine :=
  if g.xbufOff.toNat + 1 = 4 then
    ((g.storeByte b).processWord (g.storeByte b).bufferWord).clearBuffer
  else { g.storeByte b with xbufOff := g.xbufOff + 1 }

/-- `n` bytes of `src` from index `i` on, absorbed in increasing order (40_digest_buffer.md R103,
20_memory.md R51); `none` where a read falls outside the sequence (00_scope.md R10). -/
def Engine.absorbRange (m : Memory) (src : Seq) : (n : Nat) → (i : Nat) → Engine → Option Engine
  | 0, _, g => some g
  | n + 1, i, g =>
    match memRead m src i with
    | none => none
    | some b => Engine.absorbRange m src n (i + 1) (g.absorb b)

/-- `BYTECOUNT <- BYTECOUNT + n` (40_digest_buffer.md R102, R103). -/
def Engine.addCount (g : Engine) (n : Nat) : Engine :=
  { g with byteCount := g.byteCount + BitVec.ofNat 64 n }

/-- UPDATE (40_digest_buffer.md R102). -/
def execUpdate (imm8 : Byte) (s : State) : Host.Outcome State Fault Refusal :=
  s.onEngine fun g =>
    if updateOverflows g.byteCount then .next (s.raise .lengthOverflow)
    else .next (s.commit ((g.absorb imm8).addCount 1) 0 .none)

/-- BLOCK_UPDATE (40_digest_buffer.md R103): the range check first, then the counter check. -/
def execBlockUpdate (src : Seq) (off len : BitVec 32) (s : State) : Host.Outcome State Fault Refusal :=
  s.onEngine fun g =>
    if sourceOutOfRange src off len then .next (s.raise .outOfRange)
    else if rangeOverflows g.byteCount len then .next (s.raise .lengthOverflow)
    else
      match Engine.absorbRange s.mem src (int32 len).toNat (int32 off).toNat g with
      | none => .fault .indexOutsideSequence
      | some g' => .next (s.commit (g'.addCount (int32 len).toNat) 0 .none)

end Sys2Proof.Machine
end

