-- ==== Sys2Proof/Machine/PaddingFsm.lean ====
section
/-! DEFINITION. The padding FSM, the output and the command DO_FINAL (41_padding_fsm.md). -/

namespace Sys2Proof.Machine

/-- `BL <- BYTECOUNT * 8` (41_padding_fsm.md R121). -/
def Engine.latchLength (g : Engine) : Engine := { g with bl := g.byteCount * 8 }

/-- `PHASE <- p` (41_padding_fsm.md R121, R124). -/
def Engine.inPhase (g : Engine) (p : Phase) : Engine := { g with phase := p }

/-- The action of `FIN_SENTINEL`: latch `BL`, absorb the sentinel (41_padding_fsm.md R121, R124). -/
def Engine.finSentinel (g : Engine) : Engine :=
  g.latchLength.absorb 0x80

/-- The loop of `FIN_ZERO`: zero bytes until the block position is 56, for at most `n` rounds
(41_padding_fsm.md R121). -/
def Engine.absorbZeros : (n : Nat) → Engine → Engine
  | 0, g => g
  | n + 1, g => if g.position = 56 then g else Engine.absorbZeros n (g.absorb 0)

/-- The action of `FIN_ZERO`. Position 56 is at most 127 bytes away from every value of the two offsets
(41_padding_fsm.md R123, R124; log 14). -/
def Engine.finZero (g : Engine) : Engine := g.absorbZeros 128

/-- The action of `FIN_LENGTH`: the eight bytes of `BL`, most significant first (41_padding_fsm.md R121). -/
def Engine.finLength (g : Engine) : Engine :=
  (List.range 8).foldl (fun g' k => g'.absorb (lengthByte g'.bl k)) g

/-- FINISH (41_padding_fsm.md R121), the first three phases of the FSM. -/
def Engine.finish (g : Engine) : Engine := g.finSentinel.finZero.finLength

/-- The 20 bytes of the digest in output order (41_padding_fsm.md R125, 20_memory.md R55). -/
def digestOf (h : Vector Word 5) : List Byte :=
  h.toList.flatMap fun w => (List.range 4).map (outByte w)

/-- Writes bytes at consecutive indices of a sequence from `i` on; `none` where a write falls outside it
(00_scope.md R10). -/
def writeBytes (dst : Seq) : (bs : List Byte) → (i : Nat) → Memory → Option Memory
  | [], _, m => some m
  | b :: bs, i, m =>
    match memWrite m dst i b with
    | none => none
    | some m' => writeBytes dst bs (i + 1) m'

/-- OUTPUT(DST, DOFF) (41_padding_fsm.md R125). -/
def output (dst : Seq) (doff : Nat) (h : Vector Word 5) (m : Memory) : Option Memory :=
  writeBytes dst (digestOf h) doff m

/-- What the padding FSM works on: the engine and host memory. -/
structure FinalRun where
  eng : Engine
  mem : Memory
deriving DecidableEq, Repr

/-- One row of the padding FSM: the phase's action, then the phase that follows (41_padding_fsm.md R124). -/
def fsmStep (dst : Seq) (doff : Nat) (r : FinalRun) : Option FinalRun :=
  match r.eng.phase with
  | .idle => some r
  | .finSentinel => some { r with eng := r.eng.finSentinel.inPhase .finZero }
  | .finZero => some { r with eng := r.eng.finZero.inPhase .finLength }
  | .finLength => some { r with eng := r.eng.finLength.inPhase .finOutput }
  | .finOutput =>
    match output dst doff r.eng.h r.mem with
    | none => none
    | some m => some { eng := r.eng.inPhase .finReset, mem := m }
  | .finReset => some { r with eng := r.eng.resetState }

/-- The FSM runs until it is idle again, at most `n` rows (41_padding_fsm.md R124). -/
def runFsm (dst : Seq) (doff : Nat) : (n : Nat) → FinalRun → Option FinalRun
  | 0, r => some r
  | n + 1, r =>
    match fsmStep dst doff r with
    | none => none
    | some r' => if r'.eng.phase = .idle then some r' else runFsm dst doff n r'

/-- DO_FINAL (41_padding_fsm.md R120): the range check, then the FSM from `FIN_SENTINEL` through its five
phases. -/
def execDoFinal (dst : Seq) (doff : BitVec 32) (s : State) : Host.Outcome State Fault Refusal :=
  s.onEngine fun g =>
    if outputOutOfRange dst doff then .next (s.raise .outOfRange)
    else
      match runFsm dst (int32 doff).toNat 5 ⟨g.inPhase .finSentinel, s.mem⟩ with
      | none => .fault .indexOutsideSequence
      | some r => .next (State.commit { s with mem := r.mem } r.eng 20 .none)

end Sys2Proof.Machine
end

