-- ==== Sys2Proof/Machine/Dispatch.lean ====
section
/-! DEFINITION. One arm per command (30_encoding.md R75). -/

namespace Sys2Proof.Machine

def exec (i : Instr) (s : State) : Host.Outcome State Fault Refusal :=
  match i with
  | .update imm8 => Sys2Proof.Machine.execUpdate imm8 s
  | .blockUpdate src off len => Sys2Proof.Machine.execBlockUpdate src off len s
  | .doFinal dst doff => Sys2Proof.Machine.execDoFinal dst doff s
  | .reset => Sys2Proof.Machine.execReset s
  | .digestSize => Sys2Proof.Machine.execDigestSize s
  | .algorithmName => Sys2Proof.Machine.execAlgorithmName s
  | .ctxSave => Sys2Proof.Machine.execCtxSave s
  | .ctxLoad ctxin => Sys2Proof.Machine.execCtxLoad ctxin s

end Sys2Proof.Machine
end

