-- ==== Sys2Proof/Machine/Fetch.lean ====
section
/-! DEFINITION. Taking the next command from the host: the oldest issued transaction, the host duties it
must keep, its decoding (30_encoding.md R70, R76; 20_memory.md R63; 70_reset_and_hazards.md R234, R235). -/

namespace Sys2Proof.Machine

/-- What the command interface has for the next step. -/
inductive Fetched where
  /-- No command issued: nothing happens (log 7). -/
  | idle
  /-- A run the model gives no meaning (logs 8, 10, 11). -/
  | refuse (r : Refusal)
  /-- An illegal command word, to be answered by `raise ILLEGAL_COMMAND`. -/
  | illegal (s : State)
  /-- A decoded command and the state in which it executes. -/
  | run (i : Instr) (s : State)
deriving DecidableEq, Repr

/-- Whether a command has a buffer in host memory (20_memory.md R50). -/
def hasBuffer : Instr → Bool
  | .update _ => false
  | .blockUpdate _ _ _ => true
  | .doFinal _ _ => true
  | .reset => false
  | .digestSize => false
  | .algorithmName => false
  | .ctxSave => false
  | .ctxLoad _ => false

/-- The refusal a rejected transaction gets (log 11). -/
def refusalOf : Rejection → Refusal
  | .operandShape => .operandShape
  | .sequenceTooLong => .sequenceTooLong

/-- The state in which a transaction executes: it is taken from the queue and its instance addressed. -/
def State.accept (s : State) (tx : Transaction) (rest : List Transaction) : State :=
  { s with queue := rest, target := tx.inst }

/-- A transaction at the head of the queue, with the transactions issued after it, is one of two overlapping
commands: it was issued before the previous command to its instance had responded, or the next transaction to
its instance was issued before its own response (70_reset_and_hazards.md R234; log 8). Transactions to other
instances do not matter. -/
abbrev overlaps (tx : Transaction) (rest : List Transaction) : Prop :=
  tx.conduct = .overlapping ∨
    (rest.find? fun b => decide (b.inst = tx.inst)).map Transaction.conduct = some .overlapping

/-- What a transaction at the head of the queue makes (order of the checks: log 18). -/
def fetchHead (s : State) (tx : Transaction) (rest : List Transaction) : Fetched :=
  if s.engines.length ≤ tx.inst then .refuse .noSuchInstance
  else if overlaps tx rest then .refuse .overlappingCommands
  else
    match decode tx.cmd tx.operands with
    | .illegal => .illegal (s.accept tx rest)
    | .rejected why => .refuse (refusalOf why)
    | .command i =>
      if tx.conduct = .bufferTouched ∧ hasBuffer i = true then .refuse .bufferTouched
      else .run i (s.accept tx rest)

/-- The next command, oldest first (20_memory.md R63). -/
def fetch (s : State) : Fetched :=
  match s.queue with
  | [] => .idle
  | tx :: rest => fetchHead s tx rest

/-- The transaction of a table word: to instance 0, its operand record zero, the host's duties kept
(logs 6, 15). -/
def tableTransaction (nbits w : Nat) : Transaction :=
  { inst := 0, cmd := tableWord nbits w, operands := zeroOperands (tableWord nbits w), conduct := .clean }

/-- The transaction that carries a command to an instance. -/
def transactionOf (inst : Nat) (i : Instr) : Transaction :=
  { inst := inst, cmd := encodeWord i, operands := i.operands, conduct := .clean }

end Sys2Proof.Machine
end

