-- ==== Sys2Proof/Machine/Step.lean ====
section
/-! DEFINITION. One step: the next command of the host's stream, executed with its response (00_scope.md
R5, R12; 70_reset_and_hazards.md R233). -/

namespace Sys2Proof.Machine

/-- What the block does with what the command interface has; `s` is the state before the fetch. -/
def carryOut (s : State) : Fetched → Host.Outcome State Fault Refusal
  | .idle => .next s
  | .refuse r => .refused r
  | .illegal s' => .next (s'.raise .illegalCommand)
  | .run i s' => exec i s'

/-- One command transaction (00_scope.md R12, 30_encoding.md R70, R76). -/
def step (s : State) : Host.Outcome State Fault Refusal := carryOut s (fetch s)

/-- The state in which a table word is the next command the host has issued, to instance 0. Commands already
issued stay behind it, but not where they would overlap it (log 6). -/
def State.withFetchWord (s : State) (nbits w : Nat) : State :=
  { s with
    queue :=
      if overlaps (tableTransaction nbits w) s.queue then [tableTransaction nbits w]
      else tableTransaction nbits w :: s.queue }

end Sys2Proof.Machine
end

