-- ==== Sys2Proof/Machine/Assembler.lean ====
section
/-! DEFINITION. The host side of the command set: assembler lines and pseudo-instructions
(30_encoding.md R81, R82), read from text and issued one command at a time. The text conventions R81
leaves open are in log 16. -/

namespace Sys2Proof.Machine

/-- An assembler line, its operands already looked up (30_encoding.md R81, R82). -/
inductive AsmLine where
  /-- An empty or comment line. -/
  | blank
  | command (inst : Nat) (i : Instr)
  | updates (inst : Nat) (s : List Byte)
  | hash (inst : Nat) (dst : Seq) (doff : BitVec 32) (src : Seq) (off len : BitVec 32)
  | clone (m n : Nat)
deriving DecidableEq, Repr

/-- The host's names for its byte sequences and saved context records (30_encoding.md R81), two separate lists;
what counts as a name, and which of two equal names counts, is the model's choice (log 16). -/
structure HostNames where
  seqs : List (List Char × Seq)
  ctxs : List (List Char × Context)
deriving DecidableEq, Repr

/-- The commands a line stands for, where they do not depend on a response (30_encoding.md R82); `clone`
is in `runLine`. -/
def AsmLine.expansion : AsmLine → List (Nat × Instr)
  | .blank => []
  | .command inst i => [(inst, i)]
  | .updates inst s => s.map fun b => (inst, .update b)
  | .hash inst dst doff src off len =>
    [(inst, .reset), (inst, .blockUpdate src off len), (inst, .doFinal dst doff)]
  | .clone _ _ => []

/-- The host issues one command and the block executes it (30_encoding.md R70). -/
def issue (inst : Nat) (i : Instr) (s : State) : Host.Outcome State Fault Refusal :=
  step { s with queue := transactionOf inst i :: s.queue }

/-- The latest response, the one the host has just received. -/
def State.lastResponse (s : State) : Option Response := s.responses.getLast?

/-- Issues commands in order; with `stop`, a raised status ends the sequence there (30_encoding.md R82). -/
def issueAll (stop : Bool) : List (Nat × Instr) → State → Host.Outcome State Fault Refusal
  | [], s => .next s
  | (inst, i) :: rest, s =>
    match issue inst i s with
    | .next s' =>
      if stop = true ∧ s'.lastResponse.map Response.status ≠ some .ok then .next s'
      else issueAll stop rest s'
    | .fault f => .fault f
    | .refused r => .refused r

/-- `@n ctxload k` with the record `k` of the response just received (30_encoding.md R82). -/
def loadLast (n : Nat) (s : State) : Host.Outcome State Fault Refusal :=
  match s.lastResponse with
  | some ⟨_, _, _, .context k⟩ => issue n (.ctxLoad k) s
  | _ => .next s

/-- Runs a line: its expansion, in order; in `hash` a raised status ends the expansion; `clone m, n` moves
the record of `@m ctxsave` to `@n ctxload` (30_encoding.md R82). -/
def runLine (l : AsmLine) (s : State) : Host.Outcome State Fault Refusal :=
  match l with
  | .blank => .next s
  | .command inst i => issue inst i s
  | .updates _ _ => issueAll false l.expansion s
  | .hash _ _ _ _ _ _ => issueAll true l.expansion s
  | .clone m n =>
    match issue m .ctxSave s with
    | .next s' => loadLast n s'
    | .fault f => .fault f
    | .refused r => .refused r

/-! ### From text -/

/-- A blank between tokens. -/
def isBlank (c : Char) : Bool := c = ' ' || c = '\t'

/-- Blanks at both ends removed. -/
def trimBlanks (cs : List Char) : List Char := ((cs.dropWhile isBlank).reverse.dropWhile isBlank).reverse

/-- `;` starts a comment, but not inside a quoted string (30_encoding.md R81; log 16). -/
def stripComment : (quoted : Bool) → List Char → List Char
  | _, [] => []
  | quoted, c :: cs =>
    if c = ';' && !quoted then [] else c :: stripComment (if c = '"' then !quoted else quoted) cs

/-- The parts between commas. -/
def splitCommas : List Char → List (List Char)
  | [] => [[]]
  | c :: cs =>
    if c = ',' then [] :: splitCommas cs
    else
      match splitCommas cs with
      | [] => [[c]]
      | p :: ps => (c :: p) :: ps

/-- The value of a digit in a base up to 16. -/
def digitValue (base : Nat) (c : Char) : Option Nat :=
  let v := if '0' ≤ c ∧ c ≤ '9' then c.toNat - 48
    else if 'a' ≤ c ∧ c ≤ 'f' then c.toNat - 87
    else if 'A' ≤ c ∧ c ≤ 'F' then c.toNat - 55
    else 16
  if v < base then some v else none

/-- The digits of a number after the value `acc`. -/
def digitsFrom (base : Nat) : Nat → List Char → Option Nat
  | acc, [] => some acc
  | acc, c :: cs =>
    match digitValue base c with
    | none => none
    | some v => digitsFrom base (acc * base + v) cs

/-- A number, decimal or `0x` hex (30_encoding.md R81). -/
def parseNat (cs : List Char) : Option Nat :=
  match cs with
  | [] => none
  | '0' :: 'x' :: [] => none
  | '0' :: 'x' :: ds => digitsFrom 16 0 ds
  | ds => digitsFrom 10 0 ds

/-- An int32 operand: a number with an optional minus sign, in `-2^31 .. 2^31-1` (00_scope.md R7; log 16). -/
def parseInt32 (cs : List Char) : Option (BitVec 32) :=
  match cs with
  | '-' :: ds =>
    match parseNat ds with
    | none => none
    | some n => if n ≤ 2 ^ 31 then some (BitVec.ofInt 32 (-n)) else none
  | ds =>
    match parseNat ds with
    | none => none
    | some n => if n < 2 ^ 31 then some (BitVec.ofNat 32 n) else none

/-- `imm8`, `0 <= imm8 <= 255` (30_encoding.md R81). -/
def parseImm8 (cs : List Char) : Option Byte :=
  match parseNat cs with
  | none => none
  | some n => if n ≤ 255 then some (BitVec.ofNat 8 n) else none

/-- An instance number, `0 <= n < N_INSTANCES` (30_encoding.md R81). -/
def parseInst (nInst : Nat) (cs : List Char) : Option Nat :=
  match parseNat cs with
  | none => none
  | some n => if n < nInst then some n else none

/-- The thing a name stands for. DESIGN CHOICE (log 16), since 30_encoding.md R81 does not say what counts as a
name: a name is any operand text, blanks at its ends removed, compared exactly, and of two equal names the first
in the list counts. -/
def lookupName {α : Type} (names : List (List Char × α)) (name : List Char) : Option α :=
  match names with
  | [] => none
  | (k, v) :: rest => if k = name then some v else lookupName rest name

/-- The bytes of a quoted ASCII string (30_encoding.md R82). -/
def parseString (cs : List Char) : Option (List Byte) :=
  match cs with
  | '"' :: rest =>
    match rest.reverse with
    | '"' :: body =>
      if body.all fun c => c.toNat < 128 && c ≠ '"' then some (body.reverse.map fun c => BitVec.ofNat 8 c.toNat)
      else none
    | _ => none
  | _ => none

/-- A line without prefix and comment: a mnemonic and its operand text, for instance `inst`; `prefixed`
says whether the line named the instance (30_encoding.md R81, R82). -/
def parseBody (names : HostNames) (nInst inst : Nat) (prefixed : Bool) (mnemonic rest : List Char) :
    Option AsmLine :=
  let ops := if rest = [] then [] else (splitCommas rest).map trimBlanks
  if mnemonic = "update".toList then
    match ops with
    | [x] => (parseImm8 x).map fun b => .command inst (.update b)
    | _ => none
  else if mnemonic = "blockupdate".toList then
    match ops with
    | [x, y, z] =>
      match lookupName names.seqs x, parseInt32 y, parseInt32 z with
      | some src, some off, some len => some (.command inst (.blockUpdate src off len))
      | _, _, _ => none
    | _ => none
  else if mnemonic = "dofinal".toList then
    match ops with
    | [x, y] =>
      match lookupName names.seqs x, parseInt32 y with
      | some dst, some doff => some (.command inst (.doFinal dst doff))
      | _, _ => none
    | _ => none
  else if mnemonic = "reset".toList then if ops = [] then some (.command inst .reset) else none
  else if mnemonic = "digestsize".toList then if ops = [] then some (.command inst .digestSize) else none
  else if mnemonic = "algname".toList then if ops = [] then some (.command inst .algorithmName) else none
  else if mnemonic = "ctxsave".toList then if ops = [] then some (.command inst .ctxSave) else none
  else if mnemonic = "ctxload".toList then
    match ops with
    | [x] => (lookupName names.ctxs x).map fun k => .command inst (.ctxLoad k)
    | _ => none
  else if mnemonic = "updates".toList then (parseString rest).map fun s => .updates inst s
  else if mnemonic = "hash".toList then
    match ops with
    | [x, y, z, u, v] =>
      match lookupName names.seqs x, parseInt32 y, lookupName names.seqs z, parseInt32 u, parseInt32 v with
      | some dst, some doff, some src, some off, some len => some (.hash inst dst doff src off len)
      | _, _, _, _, _ => none
    | _ => none
  else if mnemonic = "clone".toList then
    match ops, prefixed with
    | [x, y], false =>
      match parseInst nInst x, parseInst nInst y with
      | some m, some n => some (.clone m n)
      | _, _ => none
    | _, _ => none
  else none

/-- A mnemonic and the trimmed text after it. -/
def splitMnemonic (cs : List Char) : List Char × List Char :=
  (cs.takeWhile fun c => !isBlank c, trimBlanks (cs.dropWhile fun c => !isBlank c))

/-- Assembles one line of text for a platform of `nInst` instances (30_encoding.md R81, R82); `none` is a
line that is no line of the syntax. -/
def assemble (names : HostNames) (nInst : Nat) (line : List Char) : Option AsmLine :=
  match trimBlanks (stripComment false line) with
  | [] => some .blank
  | '@' :: cs =>
    match parseInst nInst (splitMnemonic cs).1 with
    | none => none
    | some inst =>
      parseBody names nInst inst true (splitMnemonic (splitMnemonic cs).2).1 (splitMnemonic (splitMnemonic cs).2).2
  | cs => parseBody names nInst 0 false (splitMnemonic cs).1 (splitMnemonic cs).2

end Sys2Proof.Machine
end

