-- ==== Sys2Proof/Machine/Reference.lean ====
section
/-! DEFINITION. Second descriptions the spec gives of the same results, which claims compare the machine
with: the on-the-fly expansion (42_compression.md R149), the word-level finish (41_padding_fsm.md R122), and
the digest of a padded message (41_padding_fsm.md R128). `exec` and `step` do not use them. -/

namespace Sys2Proof.Machine.Reference

/-- A byte string absorbed byte by byte (40_digest_buffer.md R100). -/
def absorbAll (g : Engine) (bs : List Byte) : Engine := bs.foldl Engine.absorb g

/-- How often PROCESS_BLOCK runs while a byte string is absorbed: once for each byte absorbed at block
position 63 (40_digest_buffer.md R106). -/
def dispatchCount : Engine → List Byte → Nat
  | _, [] => 0
  | g, b :: bs => (if g.position = 63 then 1 else 0) + dispatchCount (g.absorb b) bs

/-- `n` bytes of a sequence from index `i` on (20_memory.md R51). -/
def sourceBytes (m : Memory) (src : Seq) (i n : Nat) : List Byte :=
  (List.range n).map fun k => m.read (src.base + i + k)

/-- The bytes an input command supplies (40_digest_buffer.md R102, R103); no other command is one. -/
def inputBytes (m : Memory) : Instr → Option (List Byte)
  | .update b => some [b]
  | .blockUpdate src off len => some (sourceBytes m src (int32 off).toNat (int32 len).toNat)
  | .doFinal _ _ => none
  | .reset => none
  | .digestSize => none
  | .algorithmName => none
  | .ctxSave => none
  | .ctxLoad _ => none

/-- Executes commands one after another, stopping at a fault or refusal. -/
def execAll : List Instr → State → Host.Outcome State Fault Refusal
  | [], s => .next s
  | i :: rest, s =>
    match exec i s with
    | .next s' => execAll rest s'
    | .fault f => .fault f
    | .refused r => .refused r

/-- `W[t]` from the 16-word window `W[t mod 16]` (42_compression.md R149). -/
def scheduleWord (win : Vector Word 16) (t : Nat) : Word :=
  if t < 16 then win[t]?.getD 0
  else
    rotl 1 ((win[(t - 3) % 16]?.getD 0) ^^^ (win[(t - 8) % 16]?.getD 0) ^^^
      (win[(t - 14) % 16]?.getD 0) ^^^ (win[t % 16]?.getD 0))

/-- The window and the five working registers `A..E` in order. -/
structure Window where
  win : Vector Word 16
  reg : Vector Word 5
deriving DecidableEq, Repr

/-- One step with its schedule word computed at its start (42_compression.md R146, R149). -/
def windowStep (s : Window) (t : Nat) : Window :=
  let x := scheduleWord s.win t
  { win := s.win.setIfInBounds (t % 16) x,
    reg := #v[rotl 5 s.reg[0] + roundFunction t s.reg[1] s.reg[2] s.reg[3] + s.reg[4] + roundConstant t + x,
      s.reg[0], rotl 30 s.reg[1], s.reg[2], s.reg[3]] }

/-- The total function `compress(H[0..4], W[0..15]) -> H'[0..4]` (42_compression.md R148), in window form. -/
@[irreducible] def compress (h : Vector Word 5) (w : Vector Word 16) : Vector Word 5 :=
  Vector.zipWith (· + ·) h ((List.range 80).foldl windowStep ⟨w, h⟩).reg

/-- The bytes of the message an engine holds in its block and assembly buffer, in input order: four of each of
`W[0..XOFF-1]`, big-endian, then `XBUF[0..XBUF_OFF-1]` (10_state.md R30; 20_memory.md R53). -/
def heldBytes (g : Engine) : List Byte :=
  (g.w.toList.take g.xoff.toNat).flatMap (fun w => (List.range 4).map (outByte w)) ++
    g.xbuf.toList.take g.xbufOff.toNat

/-- The word at bytes `i .. i+3` of a byte string, big-endian (20_memory.md R53). -/
def wordAt (bs : List Byte) (i : Nat) : Word :=
  beWord (bs.getD i 0) (bs.getD (i + 1) 0) (bs.getD (i + 2) 0) (bs.getD (i + 3) 0)

/-- The 16 words of the 64-byte block number `k` of a byte string. -/
def blockAt (bs : List Byte) (k : Nat) : Vector Word 16 :=
  Vector.ofFn fun i : Fin 16 => wordAt bs (64 * k + 4 * i.val)

/-- The hash state after the first `n` blocks of a byte string. -/
def hashBlocks (h : Vector Word 5) (bs : List Byte) (n : Nat) : Vector Word 5 :=
  (List.range n).foldl (fun h' k => compress h' (blockAt bs k)) h

/-- The number of zero bytes between the sentinel and the length, for a message of `n` bytes
(41_padding_fsm.md R123). -/
def zeroCount (n : Nat) : Nat := if n % 64 ≤ 55 then 55 - n % 64 else 119 - n % 64

/-- What FINISH appends to a message of `n` bytes: sentinel, zeros, bit length (41_padding_fsm.md R121). -/
def padding (n : Nat) : List Byte :=
  0x80 :: (List.replicate (zeroCount n) 0 ++ (List.range 8).map (lengthByte (BitVec.ofNat 64 (8 * n))))

/-- The digest of a message: the padded message hashed block by block from the initial hash values, the
five words big-endian in order (41_padding_fsm.md R125, R128). -/
def digest (msg : List Byte) : List Byte :=
  digestOf (hashBlocks initialHash (msg ++ padding msg.length) ((msg ++ padding msg.length).length / 64))

/-- Zero bytes until `XBUF_OFF = 0`: at most three (41_padding_fsm.md R122). -/
def zerosToWord : (n : Nat) → Engine → Engine
  | 0, g => g
  | n + 1, g => if g.xbufOff = 0 then g else zerosToWord n (g.absorb 0)

/-- The word-level description of FINISH (41_padding_fsm.md R122). -/
def finishWords (g : Engine) : Engine :=
  let aligned := zerosToWord 3 (g.absorb 0x80)
  let room := if aligned.xoff.toNat > 14 then aligned.dispatchBlock else aligned
  let bl := g.byteCount * 8
  Engine.dispatchBlock
    { room with w := (room.w.setIfInBounds 14 (bl.extractLsb' 32 32)).setIfInBounds 15 (bl.extractLsb' 0 32) }

end Sys2Proof.Machine.Reference
end

