-- ==== Sys2Proof/Safety.lean ====
section
/-! DEFINITION. What holds at every command boundary, and what a safe run is. -/

namespace Sys2Proof.Machine

/-- The invariants of an engine at a command boundary (10_state.md R25, R29, R30, R31, R32). -/
abbrev Engine.Inv (g : Engine) : Prop :=
  g.OffsetsInRange ∧ g.PositionInvariant ∧ g.ZeroInvariant ∧ g.CounterInvariant ∧ g.phase = .idle

/-- The invariants of the machine at a command boundary: every engine keeps its own, host memory is in
canonical form, and the addressed instance exists. -/
abbrev State.Inv (s : State) : Prop :=
  (∀ g ∈ s.engines, g.Inv) ∧ s.mem.wf = true ∧ s.target < s.engines.length

/-- A step is safe when it does not fault. -/
def Safe (s : State) : Prop := ∀ f, step s ≠ .fault f

end Sys2Proof.Machine
end

