-- ==== Sys2Proof/Certificates/Slice0/Obligations.lean ====
section
/-! DEFINITION. The statements for the provers. Each docstring names the rule of spec/ it formalises. -/

open Sys2Proof Sys2Proof.Machine

namespace Sys2Proof.Claims

/-- The architectural reset values (10_state.md R34), written out. -/
def resetContext : Context :=
  { h := #v[0x67452301, 0xefcdab89, 0x98badcfe, 0x10325476, 0xc3d2e1f0],
    xbuf := #v[0x00, 0x00, 0x00, 0x00], xbufOff := 0,
    w := #v[0, 0, 0, 0, 0, 0, 0, 0, 0, 0, 0, 0, 0, 0, 0, 0], xoff := 0, byteCount := 0 }

/-- `t` is `s` after a command on the addressed engine that responded `OK`: the engine's architectural
state is `ctx`, one response is appended, and every other engine, the addressed instance's number and the
host's queue are as before. -/
def Ends (s t : State) (ctx : Context) (result : BitVec 32) (data : Data) : Prop :=
  t.engine?.map Engine.context = some ctx ∧
  t.responses = s.responses ++ [⟨s.target, .ok, result, data⟩] ∧
  t.target = s.target ∧ t.queue = s.queue ∧ t.engines.length = s.engines.length ∧
  ∀ n, n ≠ s.target → t.engines[n]? = s.engines[n]?

/-- The command ends with the status, `RESULT = 0`, no data and no other change (00_scope.md R11). -/
def Raises (i : Instr) (s : State) (st : Status) : Prop :=
  exec i s = .next { s with responses := s.responses ++ [⟨s.target, st, 0, .none⟩] }

/-- The command changes nothing but the response stream, to which it appends `OK` (00_scope.md R11). -/
def Reports (i : Instr) (s : State) (result : BitVec 32) (data : Data) : Prop :=
  exec i s = .next { s with responses := s.responses ++ [⟨s.target, .ok, result, data⟩] }

/-- The command is what the decoder reads from exactly this command word and operand record. -/
def EncodedAs (i : Instr) (word : BitVec 32) (ops : Operands) : Prop :=
  ∀ cmd rec, decode cmd rec = .command i ↔ cmd = word ∧ rec = ops

/-- The reserved opcodes `0x0` and `0x9`..`0xF`, a non-zero `RSV` field, a non-zero `IMM8` outside UPDATE
(30_encoding.md R77). -/
def ReservedWord (cmd : BitVec 32) : Prop :=
  (cmd.extractLsb' 28 4 = 0 ∨ 9 ≤ (cmd.extractLsb' 28 4).toNat) ∨ cmd.extractLsb' 8 20 ≠ 0 ∨
    (cmd.extractLsb' 28 4 ≠ 1 ∧ cmd.extractLsb' 0 8 ≠ 0)

/-- A record that keeps the invariants of 10_state.md R30 to R32. -/
def LegalContext (k : Context) : Prop :=
  k.xbufOff.toNat ≤ 3 ∧ k.xoff.toNat ≤ 15 ∧ k.byteCount.toNat ≤ 2 ^ 61 - 1 ∧
  4 * k.xoff.toNat + k.xbufOff.toNat = k.byteCount.toNat % 64 ∧
  (∀ i : Fin 4, k.xbufOff.toNat ≤ i.val → k.xbuf[i] = 0x00) ∧
  (∀ i : Fin 16, k.xoff.toNat ≤ i.val → k.w[i] = 0x00000000)

/-- The architectural state and phase of the addressed engine. -/
def ownState (s : State) : Option (Context × Phase) := s.engine?.map fun g => (g.context, g.phase)

/-- Two runs of a command, from `s` and from `s'`, have the same effect: the same kind of outcome, the same
architectural state of the addressed engine, the same memory and, but for the instance's number, the same
response. -/
def SameEffect (s s' : State) : Host.Outcome State Fault Refusal → Host.Outcome State Fault Refusal → Prop
  | .next t, .next t' =>
    ownState t = ownState t' ∧ t.mem = t'.mem ∧
    ∃ st result data, t.responses = s.responses ++ [⟨s.target, st, result, data⟩] ∧
      t'.responses = s'.responses ++ [⟨s'.target, st, result, data⟩]
  | .fault f, .fault f' => f = f'
  | .refused r, .refused r' => r = r'
  | _, _ => False

/-- No command already issued to the instance overlaps the line's command to it, which is issued now
(70_reset_and_hazards.md R234; log 8). -/
def ClearFor (s : State) (inst : Nat) : Prop :=
  ∀ tx, (s.queue.find? fun b => decide (b.inst = inst)) = some tx → tx.conduct ≠ .overlapping

end Sys2Proof.Claims

open Sys2Proof.Claims

/-! ### Encoding -/

/-- Decoding what the encoder writes gives the command back, for every command with every operand at every
value the interface admits (30_encoding.md R70, R71, R73, R75). -/
def Obligations.DecodeOfEncodeIsTheCommand : Prop :=
  ∀ i : Instr, i.WellFormed → decode (encode i).1 (encode i).2 = .command i

/-- Only the encoder's words decode: a transaction that decodes to a command is that command's word and
operand record, and the command is well-formed (30_encoding.md R76, R78). -/
def Obligations.EncodeOfDecodeIsTheTransaction : Prop :=
  ∀ cmd ops i, decode cmd ops = .command i → encode i = (cmd, ops) ∧ i.WellFormed

/-- A word decodes to an opcode exactly when that opcode's mask and match select it, row by row of the opcode
assignment, and its `IMM8` is `CMD[7:0]` (30_encoding.md R75, R72). -/
def Obligations.WordSelectsRowByMaskAndMatch : Prop :=
  ∀ cmd : BitVec 32,
    (∀ hd, decodeWord cmd = some hd → hd.imm8 = cmd.extractLsb' 0 8) ∧
    ((decodeWord cmd).map Head.op = some .update ↔ cmd &&& 0xFFFFFF00 = 0x10000000) ∧
    ((decodeWord cmd).map Head.op = some .blockUpdate ↔ cmd &&& 0xFFFFFFFF = 0x20000000) ∧
    ((decodeWord cmd).map Head.op = some .doFinal ↔ cmd &&& 0xFFFFFFFF = 0x30000000) ∧
    ((decodeWord cmd).map Head.op = some .reset ↔ cmd &&& 0xFFFFFFFF = 0x40000000) ∧
    ((decodeWord cmd).map Head.op = some .digestSize ↔ cmd &&& 0xFFFFFFFF = 0x50000000) ∧
    ((decodeWord cmd).map Head.op = some .algorithmName ↔ cmd &&& 0xFFFFFFFF = 0x60000000) ∧
    ((decodeWord cmd).map Head.op = some .ctxSave ↔ cmd &&& 0xFFFFFFFF = 0x70000000) ∧
    ((decodeWord cmd).map Head.op = some .ctxLoad ↔ cmd &&& 0xFFFFFFFF = 0x80000000)

/-- Reserved opcodes, a non-zero `RSV` field and a non-zero `IMM8` outside UPDATE, and nothing else, are
illegal, whatever the operand record (30_encoding.md R76, R77). -/
def Obligations.IllegalWordsAreTheReservedOnes : Prop :=
  ∀ cmd : BitVec 32, (decodeWord cmd = none ↔ ReservedWord cmd) ∧ ∀ rec, decode cmd rec = .illegal ↔ ReservedWord cmd

/-- Exactly 263 of the 2^32 words are legal commands (30_encoding.md R76). -/
def Obligations.ExactlyTwoHundredSixtyThreeLegalWords : Prop :=
  (Finset.univ.filter fun cmd : BitVec 32 => decodeWord cmd ≠ none).card = 263

/-- A transaction with a legal word whose operand record has another opcode's shape, or names a sequence of
more than `2^31 - 1` bytes, is no command (30_encoding.md R73; that it is rejected by name is the model's
choice, log 11). -/
def Obligations.RecordsOfWrongShapeOrLengthAreRejected : Prop :=
  (∀ cmd hd rec, decodeWord cmd = some hd →
    (match hd.op with
      | .blockUpdate => ∀ q off len, rec ≠ .range q off len
      | .doFinal => ∀ q doff, rec ≠ .output q doff
      | .ctxLoad => ∀ k, rec ≠ .context k
      | .update | .reset | .digestSize | .algorithmName | .ctxSave => rec ≠ .empty) →
    decode cmd rec = .rejected .operandShape) ∧
  (∀ q off len, 2 ^ 31 - 1 < q.len → decode 0x20000000 (.range q off len) = .rejected .sequenceTooLong) ∧
  (∀ q doff, 2 ^ 31 - 1 < q.len → decode 0x30000000 (.output q doff) = .rejected .sequenceTooLong)

/-- Words written out from the spec decode to what they stand for, and the spec's illegal examples to
nothing (30_encoding.md R84, 95_test_vectors.md family A). -/
def Obligations.SpecExampleWordsDecode : Prop :=
  decode 0x10000061 .empty = .command (.update 0x61) ∧
  decode 0x20000000 (.range ⟨0, 3⟩ 0 3) = .command (.blockUpdate ⟨0, 3⟩ 0 3) ∧
  decode 0x30000000 (.output ⟨0, 20⟩ 0) = .command (.doFinal ⟨0, 20⟩ 0) ∧
  decode 0x40000000 .empty = .command .reset ∧
  decode 0x00000000 .empty = .illegal ∧ decode 0x90000000 .empty = .illegal ∧
  decode 0x10000100 .empty = .illegal ∧ decode 0x40000001 .empty = .illegal

/-! ### Reset and invariants -/

/-- The three reset events give the reset state; a DO_FINAL that raises `OUT_OF_RANGE` does not reset
(70_reset_and_hazards.md R230; values 10_state.md R34). -/
def Obligations.ThreeEventsGiveTheResetState : Prop :=
  (∀ g ∈ State.reset.engines, g.context = resetContext ∧ g.phase = .idle) ∧
  State.reset.engines.length = Config.nInstances ∧ 1 ≤ Config.nInstances ∧
  ∀ s : State, s.engine?.isSome →
    (∃ t, exec .reset s = .next t ∧ ownState t = some (resetContext, .idle)) ∧
    (∀ (dst : Seq) (doff : BitVec 32), ¬ (doff.toInt < 0 ∨ doff.toInt + 20 > dst.len) →
      ∃ t, exec (.doFinal dst doff) s = .next t ∧ ownState t = some (resetContext, .idle)) ∧
    (∀ (dst : Seq) (doff : BitVec 32), (doff.toInt < 0 ∨ doff.toInt + 20 > dst.len) →
      ∃ t, exec (.doFinal dst doff) s = .next t ∧ t.engines = s.engines)

/-- The invariants hold after construction (10_state.md R30 to R32, R34). -/
def Obligations.InvariantHoldsAtReset : Prop := State.reset.Inv

/-- Every step keeps the invariants of every engine: position (10_state.md R30), zero entries (R31),
counter (R32), offsets in range (R25), `PHASE = IDLE` (R29); and the canonical form of host memory. -/
def Obligations.StepKeepsTheInvariant : Prop := ∀ s t : State, s.Inv → step s = .next t → t.Inv

/-- No step of any state reads or writes outside a sequence (00_scope.md R10). -/
def Obligations.NoStepAccessesOutsideASequence : Prop := ∀ s : State, Safe s

/-! ### The digest buffer -/

/-- ABSORB: below three held bytes the byte is stored; the fourth completes a big-endian word, which goes to
PROCESS_WORD, and empties the buffer; `BYTECOUNT` is not touched (40_digest_buffer.md R100, 20_memory.md
R53). -/
def Obligations.AbsorbAssemblesBigEndianWords : Prop :=
  ∀ (g : Engine) (b : Byte),
    (g.xbufOff.toNat < 3 →
      g.absorb b = { g with xbuf := g.xbuf.setIfInBounds g.xbufOff.toNat b, xbufOff := g.xbufOff + 1 }) ∧
    (g.xbufOff.toNat = 3 → ∃ w : Word,
      w.extractLsb' 24 8 = g.xbuf[0] ∧ w.extractLsb' 16 8 = g.xbuf[1] ∧ w.extractLsb' 8 8 = g.xbuf[2] ∧
      w.extractLsb' 0 8 = b ∧
      (g.absorb b).context =
        { (g.processWord w).context with xbuf := Vector.replicate 4 0x00, xbufOff := 0 }) ∧
    (g.absorb b).byteCount = g.byteCount

/-- PROCESS_WORD: the word is stored at `W[XOFF]`; the 16th runs PROCESS_BLOCK and starts a new, empty block
(40_digest_buffer.md R101). -/
def Obligations.ProcessWordFillsAndDispatchesBlocks : Prop :=
  ∀ (g : Engine) (w : Word),
    (g.xoff.toNat < 15 →
      g.processWord w = { g with w := g.w.setIfInBounds g.xoff.toNat w, xoff := g.xoff + 1 }) ∧
    (g.xoff.toNat = 15 →
      (g.processWord w).context =
        { g.context with
          h := (Engine.processBlock { g with w := g.w.setIfInBounds 15 w }).h,
          w := Vector.replicate 16 0x00000000, xoff := 0 })

/-- UPDATE (40_digest_buffer.md R102): encoding, overflow, effect, response. -/
def Obligations.UpdateAbsorbsOneByte : Prop :=
  ∀ imm8 : Byte,
    EncodedAs (.update imm8) (0x10000000 ||| imm8.setWidth 32) .empty ∧
    ∀ (s : State) (g : Engine), s.engine? = some g →
      (g.byteCount.toNat = 2 ^ 61 - 1 → Raises (.update imm8) s .lengthOverflow) ∧
      (g.byteCount.toNat ≠ 2 ^ 61 - 1 → ∃ t, exec (.update imm8) s = .next t ∧
        Ends s t { (g.absorb imm8).context with byteCount := g.byteCount + 1 } 0 .none ∧ t.mem = s.mem)

/-- BLOCK_UPDATE (40_digest_buffer.md R103): encoding, the range check first, then the counter check, both
in unbounded integers, then the bytes `OFF .. OFF + LEN - 1` absorbed in order, with `floor(LEN / 64)` or
`floor(LEN / 64) + 1` runs of PROCESS_BLOCK. -/
def Obligations.BlockUpdateAbsorbsTheRange : Prop :=
  ∀ (src : Seq) (off len : BitVec 32),
    (src.len ≤ 2 ^ 31 - 1 → EncodedAs (.blockUpdate src off len) 0x20000000 (.range src off len)) ∧
    ∀ (s : State) (g : Engine), s.engine? = some g →
      ((off.toInt < 0 ∨ len.toInt < 0 ∨ off.toInt + len.toInt > src.len) →
        Raises (.blockUpdate src off len) s .outOfRange) ∧
      (0 ≤ off.toInt → 0 ≤ len.toInt → off.toInt + len.toInt ≤ src.len →
        (g.byteCount.toNat + len.toInt > 2 ^ 61 - 1 → Raises (.blockUpdate src off len) s .lengthOverflow) ∧
        (g.byteCount.toNat + len.toInt ≤ 2 ^ 61 - 1 →
          ∃ t, exec (.blockUpdate src off len) s = .next t ∧
            Ends s t
              { (Reference.absorbAll g (Reference.sourceBytes s.mem src off.toNat len.toNat)).context with
                byteCount := g.byteCount + len.setWidth 64 } 0 .none ∧
            t.mem = s.mem ∧
            (g.Inv →
              len.toNat / 64 ≤ Reference.dispatchCount g (Reference.sourceBytes s.mem src off.toNat len.toNat) ∧
              Reference.dispatchCount g (Reference.sourceBytes s.mem src off.toNat len.toNat) ≤ len.toNat / 64 + 1)))

/-- BLOCK_UPDATE is equivalent to repeated UPDATE of its bytes (40_digest_buffer.md R104). -/
def Obligations.BlockUpdateEqualsRepeatedUpdate : Prop :=
  ∀ (src : Seq) (off len : BitVec 32) (s : State) (g : Engine), s.engine? = some g →
    0 ≤ off.toInt → 0 ≤ len.toInt → off.toInt + len.toInt ≤ src.len →
    g.byteCount.toNat + len.toInt ≤ 2 ^ 61 - 1 →
    ∃ t u, exec (.blockUpdate src off len) s = .next t ∧
      Reference.execAll ((Reference.sourceBytes s.mem src off.toNat len.toNat).map .update) s = .next u ∧
      t.engines.map Engine.context = u.engines.map Engine.context ∧ t.mem = u.mem

/-- Chunking invariance: whatever mix of UPDATE and BLOCK_UPDATE commands, all answered `OK`, supplies a
byte string, the architectural state is the one a single BLOCK_UPDATE of it gives
(40_digest_buffer.md R105). -/
def Obligations.ChunkingDoesNotMatter : Prop :=
  ∀ (cs : List Instr) (chunks : List (List Byte)) (src : Seq) (off len : BitVec 32) (s t : State),
    s.Inv → cs.map (Reference.inputBytes s.mem) = chunks.map some →
    Reference.execAll cs s = .next t → (∀ r ∈ t.responses.drop s.responses.length, r.status = .ok) →
    0 ≤ off.toInt → 0 ≤ len.toInt → off.toInt + len.toInt ≤ src.len →
    chunks.flatten = Reference.sourceBytes s.mem src off.toNat len.toNat →
    ∃ u, exec (.blockUpdate src off len) s = .next u ∧
      u.engines.map Engine.context = t.engines.map Engine.context

/-- PROCESS_BLOCK runs exactly at block position 63: a byte absorbed there makes `H` what PROCESS_BLOCK makes
of the block its word completes, a byte absorbed elsewhere leaves `H` unchanged, and from position `p` a byte
string reaches position 63 `(p + length) / 64` times (40_digest_buffer.md R106). -/
def Obligations.BlocksDispatchAtPosition63 : Prop :=
  ∀ g : Engine, g.xoff.toNat ≤ 15 →
    (∀ b, g.position = 63 →
      (g.absorb b).h =
        (Engine.processBlock
          { g with w := g.w.setIfInBounds 15 (beWord g.xbuf[0] g.xbuf[1] g.xbuf[2] b) }).h) ∧
    (∀ b, g.position ≠ 63 → (g.absorb b).h = g.h) ∧
    (∀ bs, Reference.dispatchCount g bs = (g.position + bs.length) / 64)

/-- The word fast path: with an empty assembly buffer, absorbing four bytes is storing their big-endian word
(40_digest_buffer.md R104, 20_memory.md R53). -/
def Obligations.FourBytesAreOneWord : Prop :=
  ∀ (g : Engine) (b0 b1 b2 b3 : Byte), g.xbufOff = 0 → g.xbuf = Vector.replicate 4 0 →
    (Reference.absorbAll g [b0, b1, b2, b3]).context = (g.processWord (b0 ++ b1 ++ b2 ++ b3)).context

/-- Where `SRC` lives does not matter: two sequences with the same bytes give the same outcome
(20_memory.md R61). -/
def Obligations.PlacementOfTheSourceDoesNotMatter : Prop :=
  ∀ (s : State) (src src' : Seq) (off len : BitVec 32), src.len = src'.len →
    (∀ i, i < src.len → memRead s.mem src i = memRead s.mem src' i) →
    exec (.blockUpdate src off len) s = exec (.blockUpdate src' off len) s

/-! ### The compression function -/

/-- EXPAND satisfies its recurrence for `i` in `[16, 80)` and leaves `W[0..15]` alone
(42_compression.md R141). -/
def Obligations.ExpansionFollowsTheRecurrence : Prop :=
  ∀ g : Engine,
    (∀ i, 16 ≤ i → i < 80 →
      g.expand.getW i =
        (g.expand.getW (i - 3) ^^^ g.expand.getW (i - 8) ^^^ g.expand.getW (i - 14) ^^^
          g.expand.getW (i - 16)).rotateLeft 1) ∧
    (∀ i, i < 16 → g.expand.getW i = g.getW i)

/-- The function and constant of each of the four rounds of twenty steps (42_compression.md R143, R142). -/
def Obligations.RoundScheduleAsTabulated : Prop :=
  ∀ t u v w,
    (t ≤ 19 → roundFunction t u v w = (u &&& v) ||| (~~~u &&& w) ∧ roundConstant t = 0x5a827999) ∧
    (20 ≤ t → t ≤ 39 → roundFunction t u v w = u ^^^ v ^^^ w ∧ roundConstant t = 0x6ed9eba1) ∧
    (40 ≤ t → t ≤ 59 →
      roundFunction t u v w = (u &&& v) ||| (u &&& w) ||| (v &&& w) ∧ roundConstant t = 0x8f1bbcdc) ∧
    (60 ≤ t → t ≤ 79 → roundFunction t u v w = u ^^^ v ^^^ w ∧ roundConstant t = 0xca62c1d6)

/-- The identities of the mixing functions and rotations (42_compression.md R150). -/
def Obligations.MixingAndRotationIdentities : Prop :=
  (∀ u v w, mixF u v w = (u &&& v) ^^^ (~~~u &&& w)) ∧
  (∀ u v w, mixG u v w = (u &&& v) ^^^ (u &&& w) ^^^ (v &&& w)) ∧
  (∀ v w, mixF 0xFFFFFFFF v w = v ∧ mixF 0 v w = w) ∧ (∀ u w, mixP u u w = w ∧ mixG u u w = u) ∧
  (∀ a b x, 0 < a → a < 32 → 0 < b → b < 32 → (a + b) % 32 ≠ 0 → rotl a (rotl b x) = rotl ((a + b) % 32) x) ∧
  (∀ x : Word, rotl 30 x = x.rotateRight 2)

/-- PROCESS_BLOCK's result is a total function of `H[0..4]` and `W[0..15]` alone, and the on-the-fly
expansion over a 16-word window gives the same one (42_compression.md R148, R149; the step's operands are
the spec's from general knowledge, log 17). -/
def Obligations.ProcessBlockIsTheWindowedCompression : Prop :=
  ∀ g : Engine, g.processBlock.h = Reference.compress g.h g.w

/-- PROCESS_BLOCK writes `H` and transient state only (42_compression.md, opening; 10_state.md R35). -/
def Obligations.ProcessBlockWritesOnlyHash : Prop :=
  ∀ g : Engine, g.processBlock.context = { g.context with h := g.processBlock.h } ∧
    g.processBlock.phase = g.phase ∧ g.processBlock.bl = g.bl

/-! ### Padding and output -/

/-- FINISH absorbs the sentinel, the zero bytes up to position 56 and the big-endian bit length, and ends at
position 0 (41_padding_fsm.md R121, R128). -/
def Obligations.FinishAbsorbsThePadding : Prop :=
  ∀ g : Engine, g.Inv →
    g.finish.context = (Reference.absorbAll g (Reference.padding g.byteCount.toNat)).context ∧
    g.finish.xoff = 0 ∧ g.finish.xbufOff = 0

/-- How many padding bytes FINISH absorbs and how often it runs PROCESS_BLOCK, for `p = BYTECOUNT mod 64`
(41_padding_fsm.md R123). FINISH absorbs exactly the bytes written out, which reach block position 63 once or
twice; `H` after it is PROCESS_BLOCK's of the one block, or of the two in order, that these bytes complete
behind the `p` bytes held. -/
def Obligations.PaddingLengthAndBlockCount : Prop :=
  ∀ g : Engine, g.Inv →
    ∃ pad : List Byte,
      g.finish.context = (Reference.absorbAll g pad).context ∧
      (g.byteCount.toNat % 64 ≤ 55 →
        pad = 0x80 :: (List.replicate (55 - g.byteCount.toNat % 64) 0x00 ++
          (List.range 8).map (lengthByte (g.byteCount * 8))) ∧
        pad.length = 64 - g.byteCount.toNat % 64 ∧ Reference.dispatchCount g pad = 1 ∧
        g.finish.h =
          (Engine.processBlock { g with w := Reference.blockAt (Reference.heldBytes g ++ pad) 0 }).h) ∧
      (56 ≤ g.byteCount.toNat % 64 →
        pad = 0x80 :: (List.replicate (119 - g.byteCount.toNat % 64) 0x00 ++
          (List.range 8).map (lengthByte (g.byteCount * 8))) ∧
        pad.length = 128 - g.byteCount.toNat % 64 ∧ Reference.dispatchCount g pad = 2 ∧
        g.finish.h =
          (Engine.processBlock
            { Engine.processBlock { g with w := Reference.blockAt (Reference.heldBytes g ++ pad) 0 } with
              w := Reference.blockAt (Reference.heldBytes g ++ pad) 1 }).h)

/-- The word-level description of FINISH leaves the same `H` (41_padding_fsm.md R122). -/
def Obligations.WordLevelFinishAgrees : Prop :=
  ∀ g : Engine, g.Inv → g.finish.h = (Reference.finishWords g).h

/-- The padding FSM: each row's action and successor phase, idle rows do nothing, and from `FIN_SENTINEL`
with the output in range five rows end in `IDLE` (41_padding_fsm.md R124). In `FIN_ZERO` the zero bytes up to
block position 56 are counted for `XOFF <= 15` (10_state.md R25); that the row ends at position 56 from every
other `XOFF` too is the model's (log 14). -/
def Obligations.PaddingFsmFollowsItsTable : Prop :=
  (∀ dst doff r, r.eng.phase = .idle → fsmStep dst doff r = some r) ∧
  (∀ dst doff r r', fsmStep dst doff r = some r' →
    (r.eng.phase = .finSentinel → r'.eng.phase = .finZero ∧ r'.mem = r.mem ∧
      r'.eng.bl = r.eng.byteCount * 8 ∧ r'.eng.context = (r.eng.absorb 0x80).context) ∧
    (r.eng.phase = .finZero → r'.eng.phase = .finLength ∧ r'.mem = r.mem ∧ r'.eng.bl = r.eng.bl ∧
      r'.eng.xoff = 14 ∧ r'.eng.xbufOff = 0 ∧
      (r.eng.xoff.toNat ≤ 15 →
        r'.eng.context =
          (Reference.absorbAll r.eng
            (List.replicate (if r.eng.position ≤ 56 then 56 - r.eng.position else 120 - r.eng.position)
              0x00)).context)) ∧
    (r.eng.phase = .finLength → r'.eng.phase = .finOutput ∧ r'.mem = r.mem ∧
      r'.eng.context = (Reference.absorbAll r.eng ((List.range 8).map (lengthByte r.eng.bl))).context) ∧
    (r.eng.phase = .finOutput → r'.eng.phase = .finReset ∧ r'.eng.context = r.eng.context ∧
      output dst doff r.eng.h r.mem = some r'.mem) ∧
    (r.eng.phase = .finReset → r'.eng.phase = .idle ∧ r'.mem = r.mem ∧ r'.eng.context = resetContext)) ∧
  (∀ dst doff r, r.eng.phase = .finSentinel → doff + 20 ≤ dst.len →
    ∃ r', runFsm dst doff 5 r = some r' ∧ r'.eng.phase = .idle)

/-- DO_FINAL (41_padding_fsm.md R120, R125, R126; 20_memory.md R52, R55): encoding, range check, the digest
big-endian at `DST[DOFF .. DOFF+19]`, every other byte of host memory unchanged, `RESULT = 20`, reset. -/
def Obligations.DoFinalWritesTheDigestAndResets : Prop :=
  ∀ (dst : Seq) (doff : BitVec 32),
    (dst.len ≤ 2 ^ 31 - 1 → EncodedAs (.doFinal dst doff) 0x30000000 (.output dst doff)) ∧
    ∀ (s : State) (g : Engine), s.engine? = some g →
      ((doff.toInt < 0 ∨ doff.toInt + 20 > dst.len) → Raises (.doFinal dst doff) s .outOfRange) ∧
      (0 ≤ doff.toInt → doff.toInt + 20 ≤ dst.len → ∃ t, exec (.doFinal dst doff) s = .next t ∧
        Ends s t resetContext 20 .none ∧
        (s.mem.wf = true → ∀ (j : Fin 5) (k : Fin 4),
          memRead t.mem dst (doff.toNat + 4 * j.val + k.val) =
            some (g.finish.h[j].extractLsb' (24 - 8 * k.val) 8)) ∧
        ∀ a, (a < dst.base + doff.toNat ∨ dst.base + doff.toNat + 20 ≤ a) → t.mem.read a = s.mem.read a)

/-- The digest of a message: from the reset state, one BLOCK_UPDATE of the message and a DO_FINAL write the
digest of the padded message at the destination (41_padding_fsm.md R120, R121, R125, R128; 00_scope.md R1).
The reference digest pads the whole message and compresses it block by block over a 16-word window
(42_compression.md R140 to R149); the operands of a step are the spec's from general knowledge (log 17). -/
def Obligations.EngineComputesTheDigestOfTheMessage : Prop :=
  ∀ (src dst : Seq) (off len doff : BitVec 32) (s : State),
    ownState s = some (resetContext, .idle) → s.mem.wf = true →
    0 ≤ off.toInt → 0 ≤ len.toInt → off.toInt + len.toInt ≤ src.len →
    0 ≤ doff.toInt → doff.toInt + 20 ≤ dst.len →
    ∃ t u, exec (.blockUpdate src off len) s = .next t ∧ exec (.doFinal dst doff) t = .next u ∧
      Reference.sourceBytes u.mem dst doff.toNat 20 =
        Reference.digest (Reference.sourceBytes s.mem src off.toNat len.toNat)

/-! ### The control commands -/

/-- RESET (43_control.md R160): encoding, effect on any state, idempotence, no host memory touched. -/
def Obligations.ResetRestoresTheInitialState : Prop :=
  EncodedAs .reset 0x40000000 .empty ∧
  ∀ s : State, s.engine?.isSome →
    ∃ t, exec .reset s = .next t ∧ Ends s t resetContext 0 .none ∧ t.mem = s.mem ∧
      ∃ u, exec .reset t = .next u ∧ Ends t u resetContext 0 .none ∧ u.mem = t.mem

/-- DIGEST_SIZE (43_control.md R161). -/
def Obligations.DigestSizeReportsTwenty : Prop :=
  EncodedAs .digestSize 0x50000000 .empty ∧
  ∀ s : State, s.engine?.isSome → Reports .digestSize s 20 .none

/-- ALGORITHM_NAME (43_control.md R162; the ASCII codes are the spec's from general knowledge, log 17). -/
def Obligations.AlgorithmNameReportsSha1 : Prop :=
  EncodedAs .algorithmName 0x60000000 .empty ∧
  ∀ s : State, s.engine?.isSome → Reports .algorithmName s 5 (.bytes [0x53, 0x48, 0x41, 0x2D, 0x31])

/-- CTX_SAVE (43_control.md R163): the record carries every architectural element, and one saved from a
state of the invariants passes every check of CTX_LOAD. -/
def Obligations.CtxSaveExportsTheArchitecturalState : Prop :=
  EncodedAs .ctxSave 0x70000000 .empty ∧
  ∀ (s : State) (g : Engine), s.engine? = some g →
    ∃ k : Context, Reports .ctxSave s 0 (.context k) ∧
      k.h = g.h ∧ k.xbuf = g.xbuf ∧ k.xbufOff.toNat = g.xbufOff.toNat ∧ k.w = g.w ∧
      k.xoff.toNat = g.xoff.toNat ∧ k.byteCount = g.byteCount ∧ (g.Inv → LegalContext k)

/-- CTX_LOAD (43_control.md R164): a record that breaks an invariant is refused, any other replaces the
whole architectural state. -/
def Obligations.CtxLoadImportsLegalRecordsOnly : Prop :=
  ∀ k : Context,
    EncodedAs (.ctxLoad k) 0x80000000 (.context k) ∧
    ∀ s : State, s.engine?.isSome →
      (¬ LegalContext k → Raises (.ctxLoad k) s .invalidContext) ∧
      (LegalContext k → ∃ t, exec (.ctxLoad k) s = .next t ∧ Ends s t k 0 .none ∧ t.mem = s.mem)

/-- `clone m, n` gives instance `n` the architectural state of instance `m` and changes no other instance
and no host memory (43_control.md R165, 30_encoding.md R82). -/
def Obligations.CloneCopiesOneInstanceToAnother : Prop :=
  ∀ (s : State) (m n : Nat), s.Inv → m < s.engines.length → n < s.engines.length →
    ClearFor s m → ClearFor s n →
    ∃ t, runLine (.clone m n) s = .next t ∧
      t.engines[n]?.map Engine.context = s.engines[m]?.map Engine.context ∧
      (∀ k, k ≠ n → t.engines[k]? = s.engines[k]?) ∧ t.mem = s.mem ∧ t.queue = s.queue

/-- In `hash`, a raised status in one line ends the expansion there: a bad source range after the
BLOCK_UPDATE, a bad destination range at the DO_FINAL, neither with any change of host memory; with both ranges
good it writes the digest of the range (30_encoding.md R82; 40_digest_buffer.md R103; 41_padding_fsm.md R120).
The reference digest rests on the step operands of log 17. -/
def Obligations.HashLineStopsAtARaisedStatus : Prop :=
  ∀ (s : State) (inst : Nat) (dst src : Seq) (doff off len : BitVec 32),
    s.Inv → inst < s.engines.length → ClearFor s inst → src.WellFormed → dst.WellFormed →
    ((off.toInt < 0 ∨ len.toInt < 0 ∨ off.toInt + len.toInt > src.len) →
      ∃ t, runLine (.hash inst dst doff src off len) s = .next t ∧ t.mem = s.mem ∧
        t.responses = s.responses ++ [⟨inst, .ok, 0, .none⟩, ⟨inst, .outOfRange, 0, .none⟩]) ∧
    (0 ≤ off.toInt → 0 ≤ len.toInt → off.toInt + len.toInt ≤ src.len →
      ((doff.toInt < 0 ∨ doff.toInt + 20 > dst.len) →
        ∃ t, runLine (.hash inst dst doff src off len) s = .next t ∧ t.mem = s.mem ∧
          t.responses =
            s.responses ++ [⟨inst, .ok, 0, .none⟩, ⟨inst, .ok, 0, .none⟩, ⟨inst, .outOfRange, 0, .none⟩]) ∧
      (0 ≤ doff.toInt → doff.toInt + 20 ≤ dst.len →
        ∃ t, runLine (.hash inst dst doff src off len) s = .next t ∧
          t.responses =
            s.responses ++ [⟨inst, .ok, 0, .none⟩, ⟨inst, .ok, 0, .none⟩, ⟨inst, .ok, 20, .none⟩] ∧
          Reference.sourceBytes t.mem dst doff.toNat 20 =
            Reference.digest (Reference.sourceBytes s.mem src off.toNat len.toNat)))

/-! ### Frames -/

/-- UPDATE and BLOCK_UPDATE change no host memory, no other instance, no queue and no phase; they append one
response (10_state.md R35; 20_memory.md R51). -/
def Obligations.InputCommandsFrame : Prop :=
  ∀ (i : Instr) (s t : State),
    ((∃ b, i = .update b) ∨ ∃ src off len, i = .blockUpdate src off len) → exec i s = .next t →
    (∀ a, t.mem.read a = s.mem.read a) ∧ t.mem = s.mem ∧ t.queue = s.queue ∧ t.target = s.target ∧
    t.engines.length = s.engines.length ∧ (∀ n, n ≠ s.target → t.engines[n]? = s.engines[n]?) ∧
    (ownState t).map Prod.snd = (ownState s).map Prod.snd ∧ ∃ r, t.responses = s.responses ++ [r]

/-- DO_FINAL changes no byte of host memory but the 20 at `DST[DOFF ..]`, and none at all when it raises; no
other instance and no queue change (10_state.md R35; 20_memory.md R52). -/
def Obligations.DoFinalFrame : Prop :=
  ∀ (dst : Seq) (doff : BitVec 32) (s t : State), exec (.doFinal dst doff) s = .next t →
    (∀ a, (∀ k, k < 20 → a ≠ dst.base + (int32 doff).toNat + k) → t.mem.read a = s.mem.read a) ∧
    ((doff.toInt < 0 ∨ doff.toInt + 20 > dst.len) → t.mem = s.mem ∧ t.engines = s.engines) ∧
    t.queue = s.queue ∧ t.target = s.target ∧ t.engines.length = s.engines.length ∧
    (∀ n, n ≠ s.target → t.engines[n]? = s.engines[n]?) ∧ ∃ r, t.responses = s.responses ++ [r]

/-- RESET and CTX_LOAD change no host memory, no other instance, no queue (10_state.md R35;
70_reset_and_hazards.md R232). -/
def Obligations.ResetAndLoadFrame : Prop :=
  ∀ (i : Instr) (s t : State), (i = .reset ∨ ∃ k, i = .ctxLoad k) → exec i s = .next t →
    (∀ a, t.mem.read a = s.mem.read a) ∧ t.mem = s.mem ∧ t.queue = s.queue ∧ t.target = s.target ∧
    t.engines.length = s.engines.length ∧ (∀ n, n ≠ s.target → t.engines[n]? = s.engines[n]?) ∧
    ∃ r, t.responses = s.responses ++ [r]

/-- DIGEST_SIZE, ALGORITHM_NAME and CTX_SAVE change no state of any engine and no host memory
(20_memory.md R60; 10_state.md R35). -/
def Obligations.ReportingCommandsFrame : Prop :=
  ∀ (i : Instr) (s t : State), (i = .digestSize ∨ i = .algorithmName ∨ i = .ctxSave) → exec i s = .next t →
    t.engines = s.engines ∧ (∀ a, t.mem.read a = s.mem.read a) ∧ t.mem = s.mem ∧ t.queue = s.queue ∧
    t.target = s.target ∧ t.free = s.free ∧ ∃ r, t.responses = s.responses ++ [r]

/-- `MemWrite` stores one byte of its sequence, leaves every other address alone and keeps the canonical
form; it and `MemRead` are defined exactly within the sequence (20_memory.md R51, R52; 00_scope.md R10). -/
def Obligations.HostMemoryReadsBackWhatWasWritten : Prop :=
  ∀ (m : Memory) (q : Seq) (i : Nat) (v : Byte), m.wf = true →
    ((memRead m q i).isSome ↔ i < q.len) ∧ ((memWrite m q i v).isSome ↔ i < q.len) ∧
    ∀ m', memWrite m q i v = some m' →
      m'.wf = true ∧ memRead m' q i = some v ∧ ∀ a, a ≠ q.base + i → m'.read a = m.read a

/-! ### Whole-machine rules -/

/-- What a command does depends only on its instance's own architectural state, on host memory and on its
operands: not on transient values (10_state.md R20), on other instances (60_exceptions.md R211), or on
earlier responses (10_state.md R33). -/
def Obligations.EffectDependsOnOwnArchitecturalStateOnly : Prop :=
  ∀ (i : Instr) (s s' : State), (ownState s).isSome → ownState s = ownState s' → s.mem = s'.mem →
    SameEffect s s' (exec i s) (exec i s')

/-- An error response changes nothing: when a step's response carries a status other than `OK`, the state
after it is the state before it but for the command taken and the response given, which has `RESULT = 0`
and no data (60_exceptions.md R200, 00_scope.md R11). -/
def Obligations.ErrorResponsesChangeNothing : Prop :=
  ∀ (s t : State) (tx : Transaction) (rest : List Transaction) (r : Response),
    s.queue = tx :: rest → step s = .next t → t.responses = s.responses ++ [r] → r.status ≠ .ok →
    t = { s with queue := rest, target := tx.inst, responses := s.responses ++ [⟨tx.inst, r.status, 0, .none⟩] }

/-- The step is total on well-formed commands: whatever legal or illegal word a well-behaved host issues to
an existing instance, with a record of its shape, it takes that command from the queue and returns exactly
one response, with one of the five status codes (00_scope.md R12; 30_encoding.md R79;
70_reset_and_hazards.md R239). -/
def Obligations.EveryWellFormedCommandResponds : Prop :=
  ∀ (s : State) (tx : Transaction) (rest : List Transaction), s.queue = tx :: rest →
    tx.inst < s.engines.length → ¬ overlaps tx rest → tx.conduct = .clean → (∀ why, decode tx.cmd tx.operands ≠ .rejected why) →
    ∃ t r, step s = .next t ∧ t.queue = rest ∧ t.responses = s.responses ++ [r] ∧ r.inst = tx.inst ∧
      r.status.code.toNat ≤ 4

/-- A step runs the command the oldest transaction decodes to, on the instance it names, with that
transaction taken from the queue; with nothing issued the state does not change (20_memory.md R63; the idle
step is the model's choice, log 7). -/
def Obligations.StepRunsTheDecodedCommand : Prop :=
  (∀ (s : State) (tx : Transaction) (rest : List Transaction) (i : Instr), s.queue = tx :: rest →
    tx.inst < s.engines.length → ¬ overlaps tx rest → tx.conduct = .clean →
    decode tx.cmd tx.operands = .command i → step s = exec i { s with queue := rest, target := tx.inst }) ∧
  (∀ s : State, s.queue = [] → step s = .next s)

/-- A reserved word is answered `ILLEGAL_COMMAND`, whatever its operands, and no legal command is
(60_exceptions.md R202; 30_encoding.md R77). -/
def Obligations.IllegalWordsRaiseIllegalCommand : Prop :=
  ∀ (s : State) (tx : Transaction) (rest : List Transaction), s.queue = tx :: rest →
    tx.inst < s.engines.length → ¬ overlaps tx rest →
    (ReservedWord tx.cmd → step s = .next
      { s with
        queue := rest, target := tx.inst,
        responses := s.responses ++ [⟨tx.inst, .illegalCommand, 0, .none⟩] }) ∧
    (¬ ReservedWord tx.cmd → ∀ t r, step s = .next t → t.responses = s.responses ++ [r] →
      r.status ≠ .illegalCommand)

/-- The five status codes, and which command can return which: no other code is ever returned, and RESET,
DIGEST_SIZE, ALGORITHM_NAME and CTX_SAVE always return `OK` (30_encoding.md R79; 60_exceptions.md R214). -/
def Obligations.EachStatusHasItsCodeAndItsCommands : Prop :=
  (Status.code .ok = 0x00 ∧ Status.code .outOfRange = 0x01 ∧ Status.code .illegalCommand = 0x02 ∧
    Status.code .lengthOverflow = 0x03 ∧ Status.code .invalidContext = 0x04) ∧
  ∀ (i : Instr) (s t : State) (r : Response), exec i s = .next t → t.responses = s.responses ++ [r] →
    (r.status = .outOfRange → (∃ src off len, i = .blockUpdate src off len) ∨ ∃ dst doff, i = .doFinal dst doff) ∧
    (r.status = .lengthOverflow → (∃ b, i = .update b) ∨ ∃ src off len, i = .blockUpdate src off len) ∧
    (r.status = .invalidContext → ∃ k, i = .ctxLoad k) ∧ r.status ≠ .illegalCommand ∧
    (i = .reset ∨ i = .digestSize ∨ i = .algorithmName ∨ i = .ctxSave → r.status = .ok)

/-- A run with overlapping commands is refused, at the earlier of the two and at the later, and only there: the
oldest transaction is refused so exactly when it was issued before the previous command to its instance had
responded, or when the next transaction to the same instance was issued before its own response; what is issued
to other instances in between does not matter (70_reset_and_hazards.md R234; the mark of a transaction and the
refusal's name are the model's, log 8). -/
def Obligations.OverlappingCommandsAreRefused : Prop :=
  ∀ (s : State) (tx : Transaction) (rest : List Transaction), s.queue = tx :: rest →
    tx.inst < s.engines.length →
    (step s = .refused .overlappingCommands ↔
      tx.conduct = .overlapping ∨
        ∃ between next later, rest = between ++ next :: later ∧ (∀ b ∈ between, b.inst ≠ tx.inst) ∧
          next.inst = tx.inst ∧ next.conduct = .overlapping)

/-- A run in which another agent touches the buffer of a command is refused (70_reset_and_hazards.md R235). -/
def Obligations.TouchedBuffersAreRefused : Prop :=
  ∀ (s : State) (tx : Transaction) (rest : List Transaction) (i : Instr), s.queue = tx :: rest →
    tx.inst < s.engines.length → ¬ overlaps tx rest → tx.conduct = .bufferTouched →
    decode tx.cmd tx.operands = .command i →
    ((∃ src off len, i = .blockUpdate src off len) ∨ ∃ dst doff, i = .doFinal dst doff) →
    step s = .refused .bufferTouched

/-- Transactions that are no commands of the interface are refused by name: an instance that does not exist,
a record of the wrong shape, a sequence too long (30_encoding.md R73, R81; 93_implementation_defined.md U15;
the names and their order are the model's choice, logs 10, 11, 18). -/
def Obligations.MalformedTransactionsAreRefused : Prop :=
  ∀ (s : State) (tx : Transaction) (rest : List Transaction), s.queue = tx :: rest →
    (s.engines.length ≤ tx.inst → step s = .refused .noSuchInstance) ∧
    (tx.inst < s.engines.length → ¬ overlaps tx rest →
      (decode tx.cmd tx.operands = .rejected .operandShape → step s = .refused .operandShape) ∧
      (decode tx.cmd tx.operands = .rejected .sequenceTooLong → step s = .refused .sequenceTooLong))
end

