-- ==== Sys2Proof/Laws/State.lean ====
section
/-! SUPPORT. One lemma per field for the record updates of the state and of an engine. -/

namespace Sys2Proof.Machine

@[simp] theorem State.answer_engines (s : State) (r : BitVec 32) (x : Data) :
    (s.answer r x).engines = s.engines := rfl
@[simp] theorem State.answer_mem (s : State) (r : BitVec 32) (x : Data) :
    (s.answer r x).mem = s.mem := rfl
@[simp] theorem State.answer_queue (s : State) (r : BitVec 32) (x : Data) :
    (s.answer r x).queue = s.queue := rfl
@[simp] theorem State.answer_target (s : State) (r : BitVec 32) (x : Data) :
    (s.answer r x).target = s.target := rfl
@[simp] theorem State.answer_responses (s : State) (r : BitVec 32) (x : Data) :
    (s.answer r x).responses = s.responses ++ [⟨s.target, .ok, r, x⟩] := rfl
@[simp] theorem State.answer_free (s : State) (r : BitVec 32) (x : Data) :
    (s.answer r x).free = s.free := rfl

@[simp] theorem State.raise_engines (s : State) (st : Status) :
    (s.raise st).engines = s.engines := rfl
@[simp] theorem State.raise_mem (s : State) (st : Status) :
    (s.raise st).mem = s.mem := rfl
@[simp] theorem State.raise_queue (s : State) (st : Status) :
    (s.raise st).queue = s.queue := rfl
@[simp] theorem State.raise_target (s : State) (st : Status) :
    (s.raise st).target = s.target := rfl
@[simp] theorem State.raise_responses (s : State) (st : Status) :
    (s.raise st).responses = s.responses ++ [⟨s.target, st, 0, .none⟩] := rfl
@[simp] theorem State.raise_free (s : State) (st : Status) :
    (s.raise st).free = s.free := rfl

@[simp] theorem State.commit_engines (s : State) (g : Engine) (r : BitVec 32) (x : Data) :
    (s.commit g r x).engines = s.engines.set s.target (g.release s.free) := rfl
@[simp] theorem State.commit_mem (s : State) (g : Engine) (r : BitVec 32) (x : Data) :
    (s.commit g r x).mem = s.mem := rfl
@[simp] theorem State.commit_queue (s : State) (g : Engine) (r : BitVec 32) (x : Data) :
    (s.commit g r x).queue = s.queue := rfl
@[simp] theorem State.commit_target (s : State) (g : Engine) (r : BitVec 32) (x : Data) :
    (s.commit g r x).target = s.target := rfl
@[simp] theorem State.commit_responses (s : State) (g : Engine) (r : BitVec 32) (x : Data) :
    (s.commit g r x).responses = s.responses ++ [⟨s.target, .ok, r, x⟩] := rfl
@[simp] theorem State.commit_free (s : State) (g : Engine) (r : BitVec 32) (x : Data) :
    (s.commit g r x).free = s.free + 1 := rfl

@[simp] theorem State.accept_engines (s : State) (tx : Transaction) (rest : List Transaction) :
    (s.accept tx rest).engines = s.engines := rfl
@[simp] theorem State.accept_mem (s : State) (tx : Transaction) (rest : List Transaction) :
    (s.accept tx rest).mem = s.mem := rfl
@[simp] theorem State.accept_queue (s : State) (tx : Transaction) (rest : List Transaction) :
    (s.accept tx rest).queue = rest := rfl
@[simp] theorem State.accept_target (s : State) (tx : Transaction) (rest : List Transaction) :
    (s.accept tx rest).target = tx.inst := rfl
@[simp] theorem State.accept_responses (s : State) (tx : Transaction) (rest : List Transaction) :
    (s.accept tx rest).responses = s.responses := rfl
@[simp] theorem State.accept_free (s : State) (tx : Transaction) (rest : List Transaction) :
    (s.accept tx rest).free = s.free := rfl


@[simp] theorem Engine.resetState_h (g : Engine) :
    g.resetState.h = initialHash := rfl
@[simp] theorem Engine.resetState_xbuf (g : Engine) :
    g.resetState.xbuf = Vector.replicate 4 0 := rfl
@[simp] theorem Engine.resetState_xbufOff (g : Engine) :
    g.resetState.xbufOff = 0 := rfl
@[simp] theorem Engine.resetState_w (g : Engine) :
    g.resetState.w = Vector.replicate 16 0 := rfl
@[simp] theorem Engine.resetState_xoff (g : Engine) :
    g.resetState.xoff = 0 := rfl
@[simp] theorem Engine.resetState_byteCount (g : Engine) :
    g.resetState.byteCount = 0 := rfl
@[simp] theorem Engine.resetState_a (g : Engine) :
    g.resetState.a = g.a := rfl
@[simp] theorem Engine.resetState_b (g : Engine) :
    g.resetState.b = g.b := rfl
@[simp] theorem Engine.resetState_c (g : Engine) :
    g.resetState.c = g.c := rfl
@[simp] theorem Engine.resetState_d (g : Engine) :
    g.resetState.d = g.d := rfl
@[simp] theorem Engine.resetState_e (g : Engine) :
    g.resetState.e = g.e := rfl
@[simp] theorem Engine.resetState_wx (g : Engine) :
    g.resetState.wx = g.wx := rfl
@[simp] theorem Engine.resetState_t (g : Engine) :
    g.resetState.t = g.t := rfl
@[simp] theorem Engine.resetState_bl (g : Engine) :
    g.resetState.bl = g.bl := rfl
@[simp] theorem Engine.resetState_phase (g : Engine) :
    g.resetState.phase = .idle := rfl

@[simp] theorem Engine.release_h (g : Engine) (n : Nat) :
    (g.release n).h = g.h := rfl
@[simp] theorem Engine.release_xbuf (g : Engine) (n : Nat) :
    (g.release n).xbuf = g.xbuf := rfl
@[simp] theorem Engine.release_xbufOff (g : Engine) (n : Nat) :
    (g.release n).xbufOff = g.xbufOff := rfl
@[simp] theorem Engine.release_w (g : Engine) (n : Nat) :
    (g.release n).w = g.w := rfl
@[simp] theorem Engine.release_xoff (g : Engine) (n : Nat) :
    (g.release n).xoff = g.xoff := rfl
@[simp] theorem Engine.release_byteCount (g : Engine) (n : Nat) :
    (g.release n).byteCount = g.byteCount := rfl
@[simp] theorem Engine.release_phase (g : Engine) (n : Nat) :
    (g.release n).phase = g.phase := rfl

@[simp] theorem Engine.loadContext_h (g : Engine) (k : Context) :
    (g.loadContext k).h = k.h := rfl
@[simp] theorem Engine.loadContext_xbuf (g : Engine) (k : Context) :
    (g.loadContext k).xbuf = k.xbuf := rfl
@[simp] theorem Engine.loadContext_xbufOff (g : Engine) (k : Context) :
    (g.loadContext k).xbufOff = k.xbufOff.setWidth 2 := rfl
@[simp] theorem Engine.loadContext_w (g : Engine) (k : Context) :
    (g.loadContext k).w = k.w := rfl
@[simp] theorem Engine.loadContext_xoff (g : Engine) (k : Context) :
    (g.loadContext k).xoff = k.xoff.setWidth 5 := rfl
@[simp] theorem Engine.loadContext_byteCount (g : Engine) (k : Context) :
    (g.loadContext k).byteCount = k.byteCount := rfl
@[simp] theorem Engine.loadContext_a (g : Engine) (k : Context) :
    (g.loadContext k).a = g.a := rfl
@[simp] theorem Engine.loadContext_b (g : Engine) (k : Context) :
    (g.loadContext k).b = g.b := rfl
@[simp] theorem Engine.loadContext_c (g : Engine) (k : Context) :
    (g.loadContext k).c = g.c := rfl
@[simp] theorem Engine.loadContext_d (g : Engine) (k : Context) :
    (g.loadContext k).d = g.d := rfl
@[simp] theorem Engine.loadContext_e (g : Engine) (k : Context) :
    (g.loadContext k).e = g.e := rfl
@[simp] theorem Engine.loadContext_wx (g : Engine) (k : Context) :
    (g.loadContext k).wx = g.wx := rfl
@[simp] theorem Engine.loadContext_t (g : Engine) (k : Context) :
    (g.loadContext k).t = g.t := rfl
@[simp] theorem Engine.loadContext_bl (g : Engine) (k : Context) :
    (g.loadContext k).bl = g.bl := rfl
@[simp] theorem Engine.loadContext_phase (g : Engine) (k : Context) :
    (g.loadContext k).phase = g.phase := rfl

@[simp] theorem Engine.addCount_h (g : Engine) (n : Nat) :
    (g.addCount n).h = g.h := rfl
@[simp] theorem Engine.addCount_xbuf (g : Engine) (n : Nat) :
    (g.addCount n).xbuf = g.xbuf := rfl
@[simp] theorem Engine.addCount_xbufOff (g : Engine) (n : Nat) :
    (g.addCount n).xbufOff = g.xbufOff := rfl
@[simp] theorem Engine.addCount_w (g : Engine) (n : Nat) :
    (g.addCount n).w = g.w := rfl
@[simp] theorem Engine.addCount_xoff (g : Engine) (n : Nat) :
    (g.addCount n).xoff = g.xoff := rfl
@[simp] theorem Engine.addCount_byteCount (g : Engine) (n : Nat) :
    (g.addCount n).byteCount = g.byteCount + BitVec.ofNat 64 n := rfl
@[simp] theorem Engine.addCount_a (g : Engine) (n : Nat) :
    (g.addCount n).a = g.a := rfl
@[simp] theorem Engine.addCount_b (g : Engine) (n : Nat) :
    (g.addCount n).b = g.b := rfl
@[simp] theorem Engine.addCount_c (g : Engine) (n : Nat) :
    (g.addCount n).c = g.c := rfl
@[simp] theorem Engine.addCount_d (g : Engine) (n : Nat) :
    (g.addCount n).d = g.d := rfl
@[simp] theorem Engine.addCount_e (g : Engine) (n : Nat) :
    (g.addCount n).e = g.e := rfl
@[simp] theorem Engine.addCount_wx (g : Engine) (n : Nat) :
    (g.addCount n).wx = g.wx := rfl
@[simp] theorem Engine.addCount_t (g : Engine) (n : Nat) :
    (g.addCount n).t = g.t := rfl
@[simp] theorem Engine.addCount_bl (g : Engine) (n : Nat) :
    (g.addCount n).bl = g.bl := rfl
@[simp] theorem Engine.addCount_phase (g : Engine) (n : Nat) :
    (g.addCount n).phase = g.phase := rfl

@[simp] theorem Engine.feedForward_h (g : Engine) :
    g.feedForward.h = #v[g.h[0] + g.a, g.h[1] + g.b, g.h[2] + g.c, g.h[3] + g.d, g.h[4] + g.e] := rfl
@[simp] theorem Engine.feedForward_xbuf (g : Engine) :
    g.feedForward.xbuf = g.xbuf := rfl
@[simp] theorem Engine.feedForward_xbufOff (g : Engine) :
    g.feedForward.xbufOff = g.xbufOff := rfl
@[simp] theorem Engine.feedForward_w (g : Engine) :
    g.feedForward.w = g.w := rfl
@[simp] theorem Engine.feedForward_xoff (g : Engine) :
    g.feedForward.xoff = g.xoff := rfl
@[simp] theorem Engine.feedForward_byteCount (g : Engine) :
    g.feedForward.byteCount = g.byteCount := rfl
@[simp] theorem Engine.feedForward_a (g : Engine) :
    g.feedForward.a = g.a := rfl
@[simp] theorem Engine.feedForward_b (g : Engine) :
    g.feedForward.b = g.b := rfl
@[simp] theorem Engine.feedForward_c (g : Engine) :
    g.feedForward.c = g.c := rfl
@[simp] theorem Engine.feedForward_d (g : Engine) :
    g.feedForward.d = g.d := rfl
@[simp] theorem Engine.feedForward_e (g : Engine) :
    g.feedForward.e = g.e := rfl
@[simp] theorem Engine.feedForward_wx (g : Engine) :
    g.feedForward.wx = g.wx := rfl
@[simp] theorem Engine.feedForward_t (g : Engine) :
    g.feedForward.t = g.t := rfl
@[simp] theorem Engine.feedForward_bl (g : Engine) :
    g.feedForward.bl = g.bl := rfl
@[simp] theorem Engine.feedForward_phase (g : Engine) :
    g.feedForward.phase = g.phase := rfl

@[simp] theorem Engine.initWorking_h (g : Engine) :
    g.initWorking.h = g.h := rfl
@[simp] theorem Engine.initWorking_xbuf (g : Engine) :
    g.initWorking.xbuf = g.xbuf := rfl
@[simp] theorem Engine.initWorking_xbufOff (g : Engine) :
    g.initWorking.xbufOff = g.xbufOff := rfl
@[simp] theorem Engine.initWorking_w (g : Engine) :
    g.initWorking.w = g.w := rfl
@[simp] theorem Engine.initWorking_xoff (g : Engine) :
    g.initWorking.xoff = g.xoff := rfl
@[simp] theorem Engine.initWorking_byteCount (g : Engine) :
    g.initWorking.byteCount = g.byteCount := rfl
@[simp] theorem Engine.initWorking_a (g : Engine) :
    g.initWorking.a = g.h[0] := rfl
@[simp] theorem Engine.initWorking_b (g : Engine) :
    g.initWorking.b = g.h[1] := rfl
@[simp] theorem Engine.initWorking_c (g : Engine) :
    g.initWorking.c = g.h[2] := rfl
@[simp] theorem Engine.initWorking_d (g : Engine) :
    g.initWorking.d = g.h[3] := rfl
@[simp] theorem Engine.initWorking_e (g : Engine) :
    g.initWorking.e = g.h[4] := rfl
@[simp] theorem Engine.initWorking_wx (g : Engine) :
    g.initWorking.wx = g.wx := rfl
@[simp] theorem Engine.initWorking_t (g : Engine) :
    g.initWorking.t = g.t := rfl
@[simp] theorem Engine.initWorking_bl (g : Engine) :
    g.initWorking.bl = g.bl := rfl
@[simp] theorem Engine.initWorking_phase (g : Engine) :
    g.initWorking.phase = g.phase := rfl

@[simp] theorem Engine.dispatchBlock_h (g : Engine) :
    g.dispatchBlock.h = g.processBlock.h := by
  simp only [Engine.dispatchBlock]
@[simp] theorem Engine.dispatchBlock_xbuf (g : Engine) :
    g.dispatchBlock.xbuf = g.processBlock.xbuf := by
  simp only [Engine.dispatchBlock]
@[simp] theorem Engine.dispatchBlock_xbufOff (g : Engine) :
    g.dispatchBlock.xbufOff = g.processBlock.xbufOff := by
  simp only [Engine.dispatchBlock]
@[simp] theorem Engine.dispatchBlock_w (g : Engine) :
    g.dispatchBlock.w = Vector.replicate 16 0 := by
  simp only [Engine.dispatchBlock]
@[simp] theorem Engine.dispatchBlock_xoff (g : Engine) :
    g.dispatchBlock.xoff = 0 := by
  simp only [Engine.dispatchBlock]
@[simp] theorem Engine.dispatchBlock_byteCount (g : Engine) :
    g.dispatchBlock.byteCount = g.processBlock.byteCount := by
  simp only [Engine.dispatchBlock]
@[simp] theorem Engine.dispatchBlock_a (g : Engine) :
    g.dispatchBlock.a = g.processBlock.a := by
  simp only [Engine.dispatchBlock]
@[simp] theorem Engine.dispatchBlock_b (g : Engine) :
    g.dispatchBlock.b = g.processBlock.b := by
  simp only [Engine.dispatchBlock]
@[simp] theorem Engine.dispatchBlock_c (g : Engine) :
    g.dispatchBlock.c = g.processBlock.c := by
  simp only [Engine.dispatchBlock]
@[simp] theorem Engine.dispatchBlock_d (g : Engine) :
    g.dispatchBlock.d = g.processBlock.d := by
  simp only [Engine.dispatchBlock]
@[simp] theorem Engine.dispatchBlock_e (g : Engine) :
    g.dispatchBlock.e = g.processBlock.e := by
  simp only [Engine.dispatchBlock]
@[simp] theorem Engine.dispatchBlock_wx (g : Engine) :
    g.dispatchBlock.wx = g.processBlock.wx := by
  simp only [Engine.dispatchBlock]
@[simp] theorem Engine.dispatchBlock_t (g : Engine) :
    g.dispatchBlock.t = g.processBlock.t := by
  simp only [Engine.dispatchBlock]
@[simp] theorem Engine.dispatchBlock_bl (g : Engine) :
    g.dispatchBlock.bl = g.processBlock.bl := by
  simp only [Engine.dispatchBlock]
@[simp] theorem Engine.dispatchBlock_phase (g : Engine) :
    g.dispatchBlock.phase = g.processBlock.phase := by
  simp only [Engine.dispatchBlock]

@[simp] theorem Engine.storeByte_h (g : Engine) (v : Byte) :
    (g.storeByte v).h = g.h := rfl
@[simp] theorem Engine.storeByte_xbuf (g : Engine) (v : Byte) :
    (g.storeByte v).xbuf = g.xbuf.setIfInBounds g.xbufOff.toNat v := rfl
@[simp] theorem Engine.storeByte_xbufOff (g : Engine) (v : Byte) :
    (g.storeByte v).xbufOff = g.xbufOff := rfl
@[simp] theorem Engine.storeByte_w (g : Engine) (v : Byte) :
    (g.storeByte v).w = g.w := rfl
@[simp] theorem Engine.storeByte_xoff (g : Engine) (v : Byte) :
    (g.storeByte v).xoff = g.xoff := rfl
@[simp] theorem Engine.storeByte_byteCount (g : Engine) (v : Byte) :
    (g.storeByte v).byteCount = g.byteCount := rfl
@[simp] theorem Engine.storeByte_a (g : Engine) (v : Byte) :
    (g.storeByte v).a = g.a := rfl
@[simp] theorem Engine.storeByte_b (g : Engine) (v : Byte) :
    (g.storeByte v).b = g.b := rfl
@[simp] theorem Engine.storeByte_c (g : Engine) (v : Byte) :
    (g.storeByte v).c = g.c := rfl
@[simp] theorem Engine.storeByte_d (g : Engine) (v : Byte) :
    (g.storeByte v).d = g.d := rfl
@[simp] theorem Engine.storeByte_e (g : Engine) (v : Byte) :
    (g.storeByte v).e = g.e := rfl
@[simp] theorem Engine.storeByte_wx (g : Engine) (v : Byte) :
    (g.storeByte v).wx = g.wx := rfl
@[simp] theorem Engine.storeByte_t (g : Engine) (v : Byte) :
    (g.storeByte v).t = g.t := rfl
@[simp] theorem Engine.storeByte_bl (g : Engine) (v : Byte) :
    (g.storeByte v).bl = g.bl := rfl
@[simp] theorem Engine.storeByte_phase (g : Engine) (v : Byte) :
    (g.storeByte v).phase = g.phase := rfl

@[simp] theorem Engine.clearBuffer_h (g : Engine) :
    g.clearBuffer.h = g.h := rfl
@[simp] theorem Engine.clearBuffer_xbuf (g : Engine) :
    g.clearBuffer.xbuf = Vector.replicate 4 0 := rfl
@[simp] theorem Engine.clearBuffer_xbufOff (g : Engine) :
    g.clearBuffer.xbufOff = 0 := rfl
@[simp] theorem Engine.clearBuffer_w (g : Engine) :
    g.clearBuffer.w = g.w := rfl
@[simp] theorem Engine.clearBuffer_xoff (g : Engine) :
    g.clearBuffer.xoff = g.xoff := rfl
@[simp] theorem Engine.clearBuffer_byteCount (g : Engine) :
    g.clearBuffer.byteCount = g.byteCount := rfl
@[simp] theorem Engine.clearBuffer_a (g : Engine) :
    g.clearBuffer.a = g.a := rfl
@[simp] theorem Engine.clearBuffer_b (g : Engine) :
    g.clearBuffer.b = g.b := rfl
@[simp] theorem Engine.clearBuffer_c (g : Engine) :
    g.clearBuffer.c = g.c := rfl
@[simp] theorem Engine.clearBuffer_d (g : Engine) :
    g.clearBuffer.d = g.d := rfl
@[simp] theorem Engine.clearBuffer_e (g : Engine) :
    g.clearBuffer.e = g.e := rfl
@[simp] theorem Engine.clearBuffer_wx (g : Engine) :
    g.clearBuffer.wx = g.wx := rfl
@[simp] theorem Engine.clearBuffer_t (g : Engine) :
    g.clearBuffer.t = g.t := rfl
@[simp] theorem Engine.clearBuffer_bl (g : Engine) :
    g.clearBuffer.bl = g.bl := rfl
@[simp] theorem Engine.clearBuffer_phase (g : Engine) :
    g.clearBuffer.phase = g.phase := rfl

/-- Losing the transient values leaves the context alone. -/
@[simp] theorem Engine.release_context (g : Engine) (n : Nat) : (g.release n).context = g.context := rfl

/-- The context of an engine after RESET_STATE does not depend on the engine. -/
theorem Engine.resetState_context (g : Engine) : g.resetState.context = Engine.reset.context := rfl

/-- A meaning on an existing instance runs on that instance's engine. -/
theorem State.onEngine_of_engine? {s : State} {g : Engine} (hg : s.engine? = some g)
    (k : Engine → Host.Outcome State Fault Refusal) : s.onEngine k = k g := by
  simp [State.onEngine, hg]

/-- What a meaning that answers a next state has run on. -/
theorem State.onEngine_next {s t : State} {k : Engine → Host.Outcome State Fault Refusal}
    (h : s.onEngine k = .next t) : ∃ g, s.engine? = some g ∧ k g = .next t := by
  unfold State.onEngine at h
  split at h
  · cases h
  · exact ⟨_, ‹_›, h⟩

/-- The addressed engine exists exactly when the instance number is in range. -/
theorem State.engine?_isSome {s : State} : s.engine?.isSome ↔ s.target < s.engines.length := by
  simp [State.engine?]

/-- After `commit` the addressed engine is the given one, its transient values lost. -/
theorem State.commit_engine? {s : State} {g : Engine} (hg : s.engine? = some g) (g' : Engine)
    (r : BitVec 32) (x : Data) : (s.commit g' r x).engine? = some (g'.release s.free) := by
  have hlt : s.target < s.engines.length := State.engine?_isSome.mp (by simp [hg])
  simp [State.engine?, hlt]

/-- `commit` touches no other engine. -/
theorem State.commit_other (s : State) (g' : Engine) (r : BitVec 32) (x : Data) {n : Nat}
    (hn : n ≠ s.target) : (s.commit g' r x).engines[n]? = s.engines[n]? := by
  simp [List.getElem?_set_ne (Ne.symm hn)]

end Sys2Proof.Machine
end

