-- ==== Sys2Proof/Laws/Compression.lean ====
section
/-! SUPPORT. What the micro-operations of the compression function read and write. -/

namespace Sys2Proof.Machine

/-- Read after write in the word file. -/
theorem Engine.getW_setW_same (g : Engine) {i : Nat} (hi : i < 80) (v : Word) : (g.setW i v).getW i = v := by
  unfold Engine.getW Engine.setW
  split
  · simp [*]
  · simp [show i - 16 < 64 by omega]

/-- A write to the word file leaves every other word alone. -/
theorem Engine.getW_setW_ne (g : Engine) {i j : Nat} (h : j ≠ i) (v : Word) : (g.setW i v).getW j = g.getW j := by
  unfold Engine.getW Engine.setW
  split
  · split
    · simp [Ne.symm h]
    · rfl
  · split
    · rfl
    · simp [show ¬ i - 16 = j - 16 by omega]

/-- The part of an engine that EXPAND and the steps leave alone. -/
structure Engine.SameFrame (g g' : Engine) : Prop where
  h : g'.h = g.h
  xbuf : g'.xbuf = g.xbuf
  xbufOff : g'.xbufOff = g.xbufOff
  w : g'.w = g.w
  xoff : g'.xoff = g.xoff
  byteCount : g'.byteCount = g.byteCount
  bl : g'.bl = g.bl
  phase : g'.phase = g.phase

theorem Engine.SameFrame.refl (g : Engine) : Engine.SameFrame g g := ⟨rfl, rfl, rfl, rfl, rfl, rfl, rfl, rfl⟩

theorem Engine.SameFrame.trans {a b c : Engine} (h1 : Engine.SameFrame a b) (h2 : Engine.SameFrame b c) :
    Engine.SameFrame a c :=
  ⟨h2.h.trans h1.h, h2.xbuf.trans h1.xbuf, h2.xbufOff.trans h1.xbufOff, h2.w.trans h1.w, h2.xoff.trans h1.xoff,
    h2.byteCount.trans h1.byteCount, h2.bl.trans h1.bl, h2.phase.trans h1.phase⟩

/-- A write to an expansion word keeps the frame. -/
theorem Engine.setW_frame (g : Engine) {i : Nat} (hi : 16 ≤ i) (v : Word) : Engine.SameFrame g (g.setW i v) := by
  unfold Engine.setW
  rw [if_neg (by omega)]
  exact ⟨rfl, rfl, rfl, rfl, rfl, rfl, rfl, rfl⟩

/-- A step keeps the frame. -/
theorem Engine.stepAt_frame (g : Engine) (k : Nat) : Engine.SameFrame g (g.stepAt k) :=
  ⟨rfl, rfl, rfl, rfl, rfl, rfl, rfl, rfl⟩

/-- Loading the working registers keeps the frame. -/
theorem Engine.initWorking_frame (g : Engine) : Engine.SameFrame g g.initWorking :=
  ⟨rfl, rfl, rfl, rfl, rfl, rfl, rfl, rfl⟩

/-- A fold keeps the frame when each of its steps does. -/
theorem Engine.foldl_frame {f : Engine → Nat → Engine} {ks : List Nat}
    (hf : ∀ g, ∀ k ∈ ks, Engine.SameFrame g (f g k)) (g : Engine) : Engine.SameFrame g (ks.foldl f g) := by
  induction ks generalizing g with
  | nil => exact .refl g
  | cons k ks ih =>
    exact (hf g k (by simp)).trans (ih (fun g' k' hk' => hf g' k' (by simp [hk'])) (f g k))

/-- EXPAND writes the expansion words only. -/
theorem Engine.expand_frame (g : Engine) : Engine.SameFrame g g.expand := by
  unfold Engine.expand
  exact Engine.foldl_frame (fun g' i hi => Engine.setW_frame g' (by simp at hi; omega) _) g

/-- The 80 steps write the working registers and the step counter only. -/
theorem Engine.rounds_frame (g : Engine) : Engine.SameFrame g g.rounds := by
  unfold Engine.rounds
  exact Engine.foldl_frame (fun g' k _ => Engine.stepAt_frame g' k) g

/-- Everything before the feed-forward keeps the frame. -/
theorem Engine.beforeFeedForward_frame (g : Engine) : Engine.SameFrame g g.expand.initWorking.rounds := by
  exact g.expand_frame.trans (g.expand.initWorking_frame.trans (Engine.rounds_frame _))

@[simp] theorem Engine.processBlock_xbuf (g : Engine) : g.processBlock.xbuf = g.xbuf := by
  rw [Engine.processBlock, Engine.feedForward_xbuf]
  exact g.beforeFeedForward_frame.xbuf

@[simp] theorem Engine.processBlock_xbufOff (g : Engine) : g.processBlock.xbufOff = g.xbufOff := by
  rw [Engine.processBlock, Engine.feedForward_xbufOff]
  exact g.beforeFeedForward_frame.xbufOff

@[simp] theorem Engine.processBlock_w (g : Engine) : g.processBlock.w = g.w := by
  rw [Engine.processBlock, Engine.feedForward_w]
  exact g.beforeFeedForward_frame.w

@[simp] theorem Engine.processBlock_xoff (g : Engine) : g.processBlock.xoff = g.xoff := by
  rw [Engine.processBlock, Engine.feedForward_xoff]
  exact g.beforeFeedForward_frame.xoff

@[simp] theorem Engine.processBlock_byteCount (g : Engine) : g.processBlock.byteCount = g.byteCount := by
  rw [Engine.processBlock, Engine.feedForward_byteCount]
  exact g.beforeFeedForward_frame.byteCount

@[simp] theorem Engine.processBlock_bl (g : Engine) : g.processBlock.bl = g.bl := by
  rw [Engine.processBlock, Engine.feedForward_bl]
  exact g.beforeFeedForward_frame.bl

@[simp] theorem Engine.processBlock_phase (g : Engine) : g.processBlock.phase = g.phase := by
  rw [Engine.processBlock, Engine.feedForward_phase]
  exact g.beforeFeedForward_frame.phase

/-- EXPAND up to (but not including) word `16 + n`. -/
def Engine.expandTo (g : Engine) (n : Nat) : Engine := (List.range' 16 n).foldl Engine.expandWord g

theorem Engine.expandTo_succ (g : Engine) (n : Nat) :
    g.expandTo (n + 1) = (g.expandTo n).expandWord (16 + n) := by
  simp [Engine.expandTo, List.range'_concat]

theorem Engine.expand_eq_expandTo (g : Engine) : g.expand = g.expandTo 64 := by
  simp only [Engine.expand, Engine.expandTo]

/-- EXPAND writes word `16 + n` in round `n` and never again. -/
theorem Engine.expandTo_getW (g : Engine) {n j : Nat} (h : j < 16 + n) (hn : n ≤ 64) :
    (g.expandTo 64).getW j = (g.expandTo n).getW j := by
  have step : ∀ d, n + d ≤ 64 → (g.expandTo (n + d)).getW j = (g.expandTo n).getW j := by
    intro d
    induction d with
    | zero => intro _; rfl
    | succ d ih =>
      intro hd
      rw [← Nat.add_assoc, Engine.expandTo_succ, Engine.expandWord, Engine.getW_setW_ne _ (by omega)]
      exact ih (by omega)
  have := step (64 - n) (by omega)
  rwa [show n + (64 - n) = 64 by omega] at this

@[simp] theorem Engine.initWorking_getW (g : Engine) (i : Nat) : g.initWorking.getW i = g.getW i := rfl

@[simp] theorem Engine.stepAt_getW (g : Engine) (k i : Nat) : (g.stepAt k).getW i = g.getW i := rfl

/-- The first `n` of the 80 steps. -/
def Engine.roundsTo (g : Engine) (n : Nat) : Engine := (List.range n).foldl Engine.stepAt g

theorem Engine.roundsTo_succ (g : Engine) (n : Nat) : g.roundsTo (n + 1) = (g.roundsTo n).stepAt n := by
  simp [Engine.roundsTo, List.range_succ]

/-- The 80 steps as a fold over the step numbers. -/
theorem Engine.rounds_eq_fold (g : Engine) : g.rounds = (List.range 80).foldl Engine.stepAt g := by
  unfold Engine.rounds
  exact Eq.refl _

theorem Engine.rounds_eq_roundsTo (g : Engine) : g.rounds = g.roundsTo 80 := g.rounds_eq_fold

@[simp] theorem Engine.roundsTo_getW (g : Engine) (n i : Nat) : (g.roundsTo n).getW i = g.getW i := by
  induction n with
  | zero => rfl
  | succ n ih => rw [Engine.roundsTo_succ, Engine.stepAt_getW, ih]

/-- The five working registers `A..E` in order. -/
def Engine.working (g : Engine) : Vector Word 5 := #v[g.a, g.b, g.c, g.d, g.e]

/-- One step, as a function of the working registers and the step's schedule word. -/
theorem Engine.stepAt_working (g : Engine) {k : Nat} (hk : k < 128) :
    (g.stepAt k).working =
      #v[rotl 5 g.working[0] + roundFunction k g.working[1] g.working[2] g.working[3] + g.working[4] +
          roundConstant k + g.getW k,
        g.working[0], rotl 30 g.working[1], g.working[2], g.working[3]] := by
  have ht : (BitVec.ofNat 7 k).toNat = k := by simp; omega
  simp only [Engine.working, Engine.stepAt, Engine.roundStep, ht]
  rfl

theorem Engine.initWorking_working (g : Engine) : g.initWorking.working = g.h := by
  ext i hi
  have : i = 0 ∨ i = 1 ∨ i = 2 ∨ i = 3 ∨ i = 4 := by omega
  rcases this with rfl | rfl | rfl | rfl | rfl <;> simp [Engine.working]

/-- The feed-forward adds the working registers word by word. -/
theorem Engine.feedForward_zip (g : Engine) : g.feedForward.h = Vector.zipWith (· + ·) g.h g.working := by
  ext i hi
  have : i = 0 ∨ i = 1 ∨ i = 2 ∨ i = 3 ∨ i = 4 := by omega
  rcases this with rfl | rfl | rfl | rfl | rfl <;> simp [Engine.working]

/-- `ROTL_n` is the library's rotation. -/
theorem rotl_eq_rotateLeft {n : Nat} (hn : n < 32) (x : Word) : rotl n x = x.rotateLeft n := by
  simp [rotl, BitVec.rotateLeft, BitVec.rotateLeftAux, Nat.mod_eq_of_lt hn]

/-- EXPAND computes the same words from the same `W[0..15]`. -/
theorem Engine.expandTo_getW_congr {g g' : Engine} (hw : g.w = g'.w) {n : Nat} (hn : n ≤ 64) {j : Nat}
    (hj : j < 16 + n) : (g.expandTo n).getW j = (g'.expandTo n).getW j := by
  induction n generalizing j with
  | zero => simp [Engine.expandTo, Engine.getW, show j < 16 by omega, hw]
  | succ n ih =>
    simp only [Engine.expandTo_succ, Engine.expandWord]
    by_cases h : j = 16 + n
    · subst h
      rw [Engine.getW_setW_same _ (by omega), Engine.getW_setW_same _ (by omega)]
      rw [ih (by omega) (by omega), ih (j := 16 + n - 8) (by omega) (by omega),
        ih (j := 16 + n - 14) (by omega) (by omega), ih (j := 16 + n - 16) (by omega) (by omega)]
    · rw [Engine.getW_setW_ne _ h, Engine.getW_setW_ne _ h]
      exact ih (by omega) (by omega)

/-- The steps compute the same working registers from the same registers and schedule. -/
theorem Engine.roundsTo_working_congr {g g' : Engine} (hr : g.working = g'.working) {n : Nat} (hn : n ≤ 80)
    (hw : ∀ j, j < n → g.getW j = g'.getW j) : (g.roundsTo n).working = (g'.roundsTo n).working := by
  induction n with
  | zero => exact hr
  | succ n ih =>
    rw [Engine.roundsTo_succ, Engine.roundsTo_succ, Engine.stepAt_working _ (by omega),
      Engine.stepAt_working _ (by omega), ih (by omega) fun j hj => hw j (by omega), Engine.roundsTo_getW,
      Engine.roundsTo_getW, hw n (by omega)]

/-- PROCESS_BLOCK reads `H[0..4]` and `W[0..15]` only: transient state left by earlier commands does not
matter (10_state.md R20). -/
theorem Engine.processBlock_h_congr {g g' : Engine} (hh : g.h = g'.h) (hw : g.w = g'.w) :
    g.processBlock.h = g'.processBlock.h := by
  have hwork : g.expand.initWorking.working = g'.expand.initWorking.working := by
    rw [Engine.initWorking_working, Engine.initWorking_working, g.expand_frame.h, g'.expand_frame.h, hh]
  have hrounds := Engine.roundsTo_working_congr hwork (n := 80) (by omega) fun j hj => by
    rw [Engine.initWorking_getW, Engine.initWorking_getW, Engine.expand_eq_expandTo, Engine.expand_eq_expandTo]
    exact Engine.expandTo_getW_congr hw (by omega) (by omega)
  rw [Engine.processBlock, Engine.processBlock, Engine.feedForward_zip, Engine.feedForward_zip,
    g.beforeFeedForward_frame.h, g'.beforeFeedForward_frame.h, Engine.rounds_eq_roundsTo,
    Engine.rounds_eq_roundsTo, hrounds, hh]

end Sys2Proof.Machine
end

