-- ==== Sys2Proof/Laws/Decode.lean ====
section
/-! SUPPORT. The fields of a command word, and what the decoder reads from them. -/

namespace Sys2Proof

/-- The three fields make up the word (30_encoding.md R71). -/
theorem word_ext {x y : BitVec 32} (h1 : opField x = opField y) (h2 : rsvField x = rsvField y)
    (h3 : immField x = immField y) : x = y := by
  have e1 := fun j => congrArg (fun z : BitVec 4 => z.getLsbD j) h1
  have e2 := fun j => congrArg (fun z : BitVec 20 => z.getLsbD j) h2
  have e3 := fun j => congrArg (fun z : BitVec 8 => z.getLsbD j) h3
  apply BitVec.eq_of_getLsbD_eq
  intro i hi
  by_cases c1 : i < 8
  · simpa [immField, c1] using e3 i
  · by_cases c2 : i < 28
    · have := e2 (i - 8)
      simpa [rsvField, show i - 8 < 20 by omega, show 8 + (i - 8) = i by omega] using this
    · have := e1 (i - 28)
      simpa [opField, show i - 28 < 4 by omega, show 28 + (i - 28) = i by omega] using this

@[simp] theorem opField_commandWord (op : Opcode) (b : Byte) : opField (commandWord op b) = op.nibble := by
  revert b; cases op <;> decide +kernel

@[simp] theorem rsvField_commandWord (op : Opcode) (b : Byte) : rsvField (commandWord op b) = 0 := by
  revert b; cases op <;> decide +kernel

@[simp] theorem immField_commandWord (op : Opcode) (b : Byte) : immField (commandWord op b) = b := by
  revert b; cases op <;> decide +kernel

theorem Opcode.nibble_injective {a b : Opcode} (h : a.nibble = b.nibble) : a = b := by
  revert h; cases a <;> cases b <;> decide

theorem opcodeOf_nibble (op : Opcode) : opcodeOf op.nibble = some op := by
  cases op <;> rfl

/-- A nibble is assigned to an opcode exactly when it is that opcode's. -/
theorem opcodeOf_eq_some {n : BitVec 4} {op : Opcode} : opcodeOf n = some op ↔ n = op.nibble := by
  constructor
  · revert n
    cases op <;> decide +kernel
  · rintro rfl
    exact opcodeOf_nibble op

/-- All that `decodeWord` accepts. -/
theorem decodeWord_eq_some {cmd : BitVec 32} {hd : Head} :
    decodeWord cmd = some hd ↔
      opField cmd = hd.op.nibble ∧ rsvField cmd = 0 ∧ immField cmd = hd.imm8 ∧ (hd.op = .update ∨ hd.imm8 = 0) := by
  obtain ⟨op, imm⟩ := hd
  unfold decodeWord
  cases ho : opcodeOf (opField cmd) with
  | none =>
    simp only [reduceCtorEq, false_iff]
    rintro ⟨h, -⟩
    rw [h, opcodeOf_nibble] at ho
    cases ho
  | some op' =>
    rw [opcodeOf_eq_some] at ho
    simp only [ho]
    constructor
    · intro h
      split at h
      · cases h
      · split at h
        · cases h
        · next h1 h2 =>
          cases h
          exact ⟨rfl, not_not.mp h1, rfl, by simp only [ne_eq, not_and_or, not_not] at h2; exact h2⟩
    · rintro ⟨h1, h2, h3, h4⟩
      obtain rfl := Opcode.nibble_injective h1
      have h4' : ¬(op' ≠ .update ∧ immField cmd ≠ 0) := by
        rw [h3]
        exact fun hc => h4.elim hc.1 hc.2
      rw [if_neg (not_not.mpr h2), if_neg h4', h3]

/-- The words `decodeWord` accepts are the encoder's. -/
theorem decodeWord_eq_some_iff_word {cmd : BitVec 32} {hd : Head} :
    decodeWord cmd = some hd ↔ cmd = commandWord hd.op hd.imm8 ∧ (hd.op = .update ∨ hd.imm8 = 0) := by
  rw [decodeWord_eq_some]
  constructor
  · rintro ⟨h1, h2, h3, h4⟩
    exact ⟨word_ext (by simp [h1]) (by simp [h2]) (by simp [h3]), h4⟩
  · rintro ⟨rfl, h⟩
    exact ⟨by simp, by simp, by simp, h⟩

/-- The record shapes of the opcodes: what makes a command of a head. -/
theorem Head.instr_eq_some {hd : Head} {ops : Operands} {i : Instr} (h : hd.op = .update ∨ hd.imm8 = 0) :
    hd.instr ops = some i ↔ hd.op = i.opcode ∧ hd.imm8 = i.imm8 ∧ ops = i.operands := by
  obtain ⟨op, imm⟩ := hd
  constructor
  · intro hi
    unfold Head.instr at hi
    split at hi <;> cases hi <;> simp_all [Instr.opcode, Instr.imm8, Instr.operands]
  · rintro ⟨h1, h2, rfl⟩
    cases i <;> simp_all [Head.instr, Instr.opcode, Instr.imm8, Instr.operands]

end Sys2Proof
end

