-- ==== Sys2Proof/Laws/DigestBuffer.lean ====
section
/-! SUPPORT. What ABSORB and PROCESS_WORD do, case by case, and what they keep. -/

namespace Sys2Proof.Machine

open Reference

/-- Equal architectural states, field by field. -/
theorem Engine.context_eq_iff {g g' : Engine} :
    g.context = g'.context ↔
      g.h = g'.h ∧ g.xbuf = g'.xbuf ∧ g.xbufOff = g'.xbufOff ∧ g.w = g'.w ∧ g.xoff = g'.xoff ∧
        g.byteCount = g'.byteCount := by
  constructor
  · intro h
    simp only [Engine.context, Context.mk.injEq] at h
    obtain ⟨h1, h2, h3, h4, h5, h6⟩ := h
    refine ⟨h1, h2, ?_, h4, ?_, h6⟩
    · have := congrArg (BitVec.setWidth 2) h3
      simpa using this
    · have := congrArg (BitVec.setWidth 5) h5
      simpa using this
  · rintro ⟨h1, h2, h3, h4, h5, h6⟩
    simp only [Engine.context, h1, h2, h3, h4, h5, h6]

/-- A word stored at `W[XOFF]` for `XOFF` below 16. -/
theorem Engine.setW_xoff {g : Engine} (h : g.xoff.toNat < 16) (v : Word) :
    g.setW g.xoff.toNat v = { g with w := g.w.setIfInBounds g.xoff.toNat v } := by
  simp [Engine.setW, h]

/-- PROCESS_WORD before the 16th word. -/
theorem Engine.processWord_store {g : Engine} (h : g.xoff.toNat < 15) (v : Word) :
    g.processWord v = { g with w := g.w.setIfInBounds g.xoff.toNat v, xoff := g.xoff + 1 } := by
  have hne : g.xoff + 1 ≠ 16 := by
    intro hc
    have := congrArg BitVec.toNat hc
    simp at this
    omega
  rw [Engine.processWord, if_neg hne, Engine.storeWord, Engine.setW_xoff (by omega)]

/-- PROCESS_WORD of the 16th word. -/
theorem Engine.processWord_dispatch {g : Engine} (h : g.xoff.toNat = 15) (v : Word) :
    g.processWord v = Engine.dispatchBlock { g with w := g.w.setIfInBounds 15 v, xoff := 16 } := by
  have he : g.xoff = 15 := BitVec.eq_of_toNat_eq (by simpa using h)
  rw [Engine.processWord, if_pos (by rw [he]; rfl), Engine.storeWord, Engine.setW_xoff (by omega), h, he]
  rfl

@[simp] theorem Engine.setW_byteCount (g : Engine) (i : Nat) (v : Word) : (g.setW i v).byteCount = g.byteCount := by
  unfold Engine.setW; split <;> rfl

@[simp] theorem Engine.setW_bl (g : Engine) (i : Nat) (v : Word) : (g.setW i v).bl = g.bl := by
  unfold Engine.setW; split <;> rfl

@[simp] theorem Engine.setW_phase (g : Engine) (i : Nat) (v : Word) : (g.setW i v).phase = g.phase := by
  unfold Engine.setW; split <;> rfl

@[simp] theorem Engine.setW_h (g : Engine) (i : Nat) (v : Word) : (g.setW i v).h = g.h := by
  unfold Engine.setW; split <;> rfl

@[simp] theorem Engine.setW_xbuf (g : Engine) (i : Nat) (v : Word) : (g.setW i v).xbuf = g.xbuf := by
  unfold Engine.setW; split <;> rfl

@[simp] theorem Engine.setW_xbufOff (g : Engine) (i : Nat) (v : Word) : (g.setW i v).xbufOff = g.xbufOff := by
  unfold Engine.setW; split <;> rfl

@[simp] theorem Engine.storeWord_xbuf (g : Engine) (v : Word) : (g.storeWord v).xbuf = g.xbuf :=
  Engine.setW_xbuf g _ v

@[simp] theorem Engine.storeWord_xbufOff (g : Engine) (v : Word) : (g.storeWord v).xbufOff = g.xbufOff :=
  Engine.setW_xbufOff g _ v

@[simp] theorem Engine.storeWord_byteCount (g : Engine) (v : Word) : (g.storeWord v).byteCount = g.byteCount :=
  Engine.setW_byteCount g _ v

@[simp] theorem Engine.storeWord_bl (g : Engine) (v : Word) : (g.storeWord v).bl = g.bl :=
  Engine.setW_bl g _ v

@[simp] theorem Engine.storeWord_phase (g : Engine) (v : Word) : (g.storeWord v).phase = g.phase :=
  Engine.setW_phase g _ v

/-- PROCESS_WORD does not touch the counter. -/
@[simp] theorem Engine.processWord_byteCount (g : Engine) (v : Word) : (g.processWord v).byteCount = g.byteCount := by
  simp only [Engine.processWord]; split <;> simp

/-- PROCESS_WORD does not touch the assembly buffer. -/
@[simp] theorem Engine.processWord_xbuf (g : Engine) (v : Word) : (g.processWord v).xbuf = g.xbuf := by
  simp only [Engine.processWord]; split <;> simp

@[simp] theorem Engine.processWord_xbufOff (g : Engine) (v : Word) : (g.processWord v).xbufOff = g.xbufOff := by
  simp only [Engine.processWord]; split <;> simp

@[simp] theorem Engine.processWord_bl (g : Engine) (v : Word) : (g.processWord v).bl = g.bl := by
  simp only [Engine.processWord]; split <;> simp

@[simp] theorem Engine.processWord_phase (g : Engine) (v : Word) : (g.processWord v).phase = g.phase := by
  simp only [Engine.processWord]; split <;> simp

/-- ABSORB does not touch `BYTECOUNT` (40_digest_buffer.md R100). -/
@[simp] theorem Engine.absorb_byteCount (g : Engine) (b : Byte) : (g.absorb b).byteCount = g.byteCount := by
  simp only [Engine.absorb]; split <;> simp

@[simp] theorem Engine.absorb_bl (g : Engine) (b : Byte) : (g.absorb b).bl = g.bl := by
  simp only [Engine.absorb]; split <;> simp

@[simp] theorem Engine.absorb_phase (g : Engine) (b : Byte) : (g.absorb b).phase = g.phase := by
  simp only [Engine.absorb]; split <;> simp

/-- ABSORB with fewer than three bytes held. -/
theorem Engine.absorb_store {g : Engine} (h : g.xbufOff.toNat < 3) (b : Byte) :
    g.absorb b = { g with xbuf := g.xbuf.setIfInBounds g.xbufOff.toNat b, xbufOff := g.xbufOff + 1 } := by
  rw [Engine.absorb, if_neg (by omega), Engine.storeByte]

/-- The word three held bytes and a fourth make. -/
def Engine.completedWord (g : Engine) (b : Byte) : Word := beWord g.xbuf[0] g.xbuf[1] g.xbuf[2] b

theorem Engine.storeByte_bufferWord {g : Engine} (h : g.xbufOff.toNat = 3) (b : Byte) :
    (g.storeByte b).bufferWord = g.completedWord b := by
  simp [Engine.bufferWord, Engine.completedWord, h]

/-- ABSORB of a fourth byte. -/
theorem Engine.absorb_full {g : Engine} (h : g.xbufOff.toNat = 3) (b : Byte) :
    g.absorb b = ((g.storeByte b).processWord (g.completedWord b)).clearBuffer := by
  rw [Engine.absorb, if_pos (by omega), Engine.storeByte_bufferWord h]

/-- ABSORB of a fourth byte before the 16th word. -/
theorem Engine.absorb_word {g : Engine} (h : g.xbufOff.toNat = 3) (hx : g.xoff.toNat < 15) (b : Byte) :
    g.absorb b =
      { g with
        xbuf := Vector.replicate 4 0, xbufOff := 0,
        w := g.w.setIfInBounds g.xoff.toNat (g.completedWord b), xoff := g.xoff + 1 } := by
  rw [Engine.absorb_full h, Engine.processWord_store (g := g.storeByte b) hx]
  rfl

/-- ABSORB of the last byte of a block: PROCESS_BLOCK runs and the block is empty again. -/
theorem Engine.absorb_block {g : Engine} (h : g.xbufOff.toNat = 3) (hx : g.xoff.toNat = 15) (b : Byte) :
    (g.absorb b).context =
      { g.context with
        h := (Engine.processBlock { g with w := g.w.setIfInBounds 15 (g.completedWord b) }).h,
        xbuf := Vector.replicate 4 0, xbufOff := 0, w := Vector.replicate 16 0, xoff := 0 } := by
  rw [Engine.absorb_full h, Engine.processWord_dispatch (g := g.storeByte b) hx]
  simp only [Engine.context, Engine.clearBuffer_h, Engine.clearBuffer_xbuf, Engine.clearBuffer_xbufOff,
    Engine.clearBuffer_w, Engine.clearBuffer_xoff, Engine.clearBuffer_byteCount, Engine.dispatchBlock_h,
    Engine.dispatchBlock_w, Engine.dispatchBlock_xoff, Engine.dispatchBlock_byteCount,
    Engine.processBlock_byteCount]
  congr 1
  exact Engine.processBlock_h_congr rfl rfl

/-- The block position after one byte, and `XOFF` stays in range. -/
theorem Engine.absorb_position {g : Engine} (hx : g.xoff.toNat ≤ 15) (b : Byte) :
    (g.absorb b).position = (g.position + 1) % 64 ∧ (g.absorb b).xoff.toNat ≤ 15 := by
  have hoff := g.xbufOff.isLt
  by_cases h : g.xbufOff.toNat < 3
  · rw [Engine.absorb_store h]
    simp only [Engine.position, BitVec.toNat_add]
    exact ⟨by simp; omega, hx⟩
  · by_cases hx' : g.xoff.toNat < 15
    · rw [Engine.absorb_word (by omega) hx']
      simp only [Engine.position, BitVec.toNat_add]
      constructor <;> simp <;> omega
    · have hc := Engine.absorb_block (g := g) (by omega) (by omega) b
      have h1 : (g.absorb b).xbufOff = 0 := by
        have := congrArg (BitVec.setWidth 2) (congrArg Context.xbufOff hc)
        simpa [Engine.context] using this
      have h2 : (g.absorb b).xoff = 0 := by
        have := congrArg (BitVec.setWidth 5) (congrArg Context.xoff hc)
        simpa [Engine.context] using this
      simp only [Engine.position, h1, h2]
      constructor
      · simp; omega
      · simp

/-- What PROCESS_WORD writes of the architectural state depends on `H`, `W[0..15]` and `XOFF` only. -/
theorem Engine.processWord_block_congr {g g' : Engine} (hh : g.h = g'.h) (hw : g.w = g'.w) (hx : g.xoff = g'.xoff)
    (v : Word) :
    (g.processWord v).h = (g'.processWord v).h ∧ (g.processWord v).w = (g'.processWord v).w ∧
      (g.processWord v).xoff = (g'.processWord v).xoff := by
  by_cases h15 : g.xoff.toNat = 15
  · rw [Engine.processWord_dispatch h15, Engine.processWord_dispatch (hx ▸ h15)]
    simp only [Engine.dispatchBlock_h, Engine.dispatchBlock_w, Engine.dispatchBlock_xoff, and_self, and_true]
    apply Engine.processBlock_h_congr
    · exact hh
    · simp only [hw]
  · have hne : g.xoff + 1 ≠ 16 := by
      intro hc
      have := congrArg BitVec.toNat hc
      simp at this
      omega
    have hne' : g'.xoff + 1 ≠ 16 := hx ▸ hne
    rw [Engine.processWord, Engine.processWord, if_neg hne, if_neg hne', Engine.storeWord, Engine.storeWord, hx]
    unfold Engine.setW
    split
    · exact ⟨hh, by simp only [hw], rfl⟩
    · exact ⟨hh, hw, rfl⟩

/-- The architectural state after PROCESS_WORD depends on the architectural state before it only. -/
theorem Engine.processWord_congr {g g' : Engine} (h : g.context = g'.context) (v : Word) :
    (g.processWord v).context = (g'.processWord v).context := by
  obtain ⟨h1, h2, h3, h4, h5, h6⟩ := Engine.context_eq_iff.mp h
  obtain ⟨b1, b2, b3⟩ := Engine.processWord_block_congr h1 h4 h5 v
  exact Engine.context_eq_iff.mpr ⟨b1, by simp [h2], by simp [h3], b2, b3, by simp [h6]⟩

/-- The architectural state after ABSORB depends on the architectural state before it only. -/
theorem Engine.absorb_congr {g g' : Engine} (h : g.context = g'.context) (b : Byte) :
    (g.absorb b).context = (g'.absorb b).context := by
  obtain ⟨h1, h2, h3, h4, h5, h6⟩ := Engine.context_eq_iff.mp h
  have hw : g.completedWord b = g'.completedWord b := by simp only [Engine.completedWord, h2]
  have hoff := g.xbufOff.isLt
  by_cases ho : g.xbufOff.toNat < 3
  · rw [Engine.absorb_store ho, Engine.absorb_store (h3 ▸ ho)]
    simp only [Engine.context, h1, h2, h3, h4, h5, h6]
  · have h3' : g.xbufOff.toNat = 3 := by omega
    rw [Engine.absorb_full h3', Engine.absorb_full (h3 ▸ h3'), hw]
    have hb : (g.storeByte b).context = (g'.storeByte b).context := by
      rw [Engine.context_eq_iff]
      exact ⟨h1, by simp only [Engine.storeByte_xbuf, h2, h3], h3, h4, h5, h6⟩
    obtain ⟨c1, c2, c3, c4, c5, c6⟩ := Engine.context_eq_iff.mp (Engine.processWord_congr hb (g'.completedWord b))
    exact Engine.context_eq_iff.mpr ⟨c1, rfl, rfl, c4, c5, c6⟩

/-- The counter set to a value. -/
def Engine.withCount (g : Engine) (n : BitVec 64) : Engine := { g with byteCount := n }

@[simp] theorem Engine.withCount_context (g : Engine) (n : BitVec 64) :
    (g.withCount n).context = { g.context with byteCount := n } := rfl

/-- ABSORB does not read the counter (40_digest_buffer.md R100). -/
theorem Engine.absorb_withCount (g : Engine) (n : BitVec 64) (b : Byte) :
    ((g.withCount n).absorb b).context = ((g.absorb b).withCount n).context := by
  have hoff := g.xbufOff.isLt
  by_cases ho : g.xbufOff.toNat < 3
  · rw [Engine.absorb_store ho, Engine.absorb_store (g := g.withCount n) ho]
    rfl
  · have ho' : g.xbufOff.toNat = 3 := by omega
    rw [Engine.absorb_full ho', Engine.absorb_full (g := g.withCount n) ho']
    obtain ⟨b1, b2, b3⟩ := Engine.processWord_block_congr (g := (g.withCount n).storeByte b) (g' := g.storeByte b)
      rfl rfl rfl (g.completedWord b)
    exact Engine.context_eq_iff.mpr ⟨b1, rfl, rfl, b2, b3, Engine.processWord_byteCount _ _⟩

@[simp] theorem absorbAll_nil (g : Engine) : absorbAll g [] = g := rfl

@[simp] theorem absorbAll_cons (g : Engine) (b : Byte) (bs : List Byte) :
    absorbAll g (b :: bs) = absorbAll (g.absorb b) bs := rfl

theorem absorbAll_append (g : Engine) (bs cs : List Byte) :
    absorbAll g (bs ++ cs) = absorbAll (absorbAll g bs) cs := by
  simp [absorbAll]

@[simp] theorem absorbAll_byteCount (g : Engine) (bs : List Byte) : (absorbAll g bs).byteCount = g.byteCount := by
  induction bs generalizing g with
  | nil => rfl
  | cons b bs ih => rw [absorbAll_cons, ih, Engine.absorb_byteCount]

@[simp] theorem absorbAll_bl (g : Engine) (bs : List Byte) : (absorbAll g bs).bl = g.bl := by
  induction bs generalizing g with
  | nil => rfl
  | cons b bs ih => rw [absorbAll_cons, ih, Engine.absorb_bl]

@[simp] theorem absorbAll_phase (g : Engine) (bs : List Byte) : (absorbAll g bs).phase = g.phase := by
  induction bs generalizing g with
  | nil => rfl
  | cons b bs ih => rw [absorbAll_cons, ih, Engine.absorb_phase]

/-- The block position after a byte string, and `XOFF` stays in range. -/
theorem absorbAll_position {g : Engine} (hx : g.xoff.toNat ≤ 15) (bs : List Byte) :
    (absorbAll g bs).position = (g.position + bs.length) % 64 ∧ (absorbAll g bs).xoff.toNat ≤ 15 := by
  induction bs generalizing g with
  | nil =>
    have := g.xbufOff.isLt
    exact ⟨by simp only [absorbAll_nil, List.length_nil, Engine.position]; omega, hx⟩
  | cons b bs ih =>
    obtain ⟨hp, hx'⟩ := Engine.absorb_position hx b
    obtain ⟨hp', hx''⟩ := ih hx'
    refine ⟨?_, hx''⟩
    rw [absorbAll_cons, hp', hp, List.length_cons]
    omega

/-- The architectural state after a byte string depends on the one before it only. -/
theorem absorbAll_congr {g g' : Engine} (h : g.context = g'.context) (bs : List Byte) :
    (absorbAll g bs).context = (absorbAll g' bs).context := by
  induction bs generalizing g g' with
  | nil => exact h
  | cons b bs ih => exact ih (Engine.absorb_congr h b)

/-- Absorbing a byte string does not read the counter. -/
theorem absorbAll_withCount (g : Engine) (n : BitVec 64) (bs : List Byte) :
    (absorbAll (g.withCount n) bs).context = ((absorbAll g bs).withCount n).context := by
  induction bs generalizing g with
  | nil => rfl
  | cons b bs ih =>
    rw [absorbAll_cons, absorbAll_cons, absorbAll_congr (Engine.absorb_withCount g n b), ih]

/-- A byte keeps the zero invariant (10_state.md R31). -/
theorem Engine.absorb_zeroInvariant {g : Engine} (hx : g.xoff.toNat ≤ 15) (hz : g.ZeroInvariant) (b : Byte) :
    (g.absorb b).ZeroInvariant := by
  have hoff := g.xbufOff.isLt
  obtain ⟨hb, hw⟩ := hz
  by_cases ho : g.xbufOff.toNat < 3
  · rw [Engine.absorb_store ho]
    refine ⟨fun i hi => ?_, hw⟩
    have hi' : g.xbufOff.toNat + 1 ≤ i.val := by
      simp only [BitVec.toNat_add] at hi
      simp at hi
      omega
    have := hb i (by omega)
    simp only [Fin.getElem_fin] at this ⊢
    rw [Vector.getElem_setIfInBounds_ne _ (by omega)]
    exact this
  · by_cases hx' : g.xoff.toNat < 15
    · rw [Engine.absorb_word (by omega) hx']
      refine ⟨fun i _ => by simp, fun i hi => ?_⟩
      have hi' : g.xoff.toNat + 1 ≤ i.val := by
        simp only [BitVec.toNat_add] at hi
        simp at hi
        omega
      have := hw i (by omega)
      simp only [Fin.getElem_fin] at this ⊢
      rw [Vector.getElem_setIfInBounds_ne _ (by omega)]
      exact this
    · have hc := Engine.absorb_block (g := g) (by omega) (by omega) b
      have h1 : (g.absorb b).xbuf = Vector.replicate 4 0 := congrArg Context.xbuf hc
      have h2 : (g.absorb b).w = Vector.replicate 16 0 := congrArg Context.w hc
      exact ⟨fun i _ => by simp [h1], fun i _ => by simp [h2]⟩

theorem absorbAll_zeroInvariant {g : Engine} (hx : g.xoff.toNat ≤ 15) (hz : g.ZeroInvariant) (bs : List Byte) :
    (absorbAll g bs).ZeroInvariant := by
  induction bs generalizing g with
  | nil => exact hz
  | cons b bs ih => exact ih (Engine.absorb_position hx b).2 (Engine.absorb_zeroInvariant hx hz b)

/-- Each word gives four bytes. -/
theorem length_wordBytes (ws : List Word) :
    (ws.flatMap fun w => (List.range 4).map (outByte w)).length = 4 * ws.length := by
  induction ws with
  | nil => rfl
  | cons w ws ih => simp [List.flatMap_cons]; omega

/-- An engine holds as many bytes as its block position says. -/
theorem heldBytes_length {g : Engine} (hx : g.xoff.toNat ≤ 15) : (heldBytes g).length = g.position := by
  have := g.xbufOff.isLt
  rw [heldBytes, List.length_append, length_wordBytes, Engine.position]
  simp
  omega

theorem sourceBytes_zero (m : Memory) (src : Seq) (i : Nat) : sourceBytes m src i 0 = [] := rfl

theorem sourceBytes_succ (m : Memory) (src : Seq) (i n : Nat) :
    sourceBytes m src i (n + 1) = m.read (src.base + i) :: sourceBytes m src (i + 1) n := by
  simp only [sourceBytes, List.range_succ_eq_map, List.map_cons, List.map_map]
  congr 1
  exact List.map_congr_left fun k _ => by simp [Function.comp, Nat.add_assoc, Nat.add_comm 1]

/-- All that `absorbRange` does within the sequence: it absorbs the bytes in order. -/
theorem Engine.absorbRange_eq {m : Memory} {src : Seq} {n i : Nat} (h : i + n ≤ src.len) (g : Engine) :
    Engine.absorbRange m src n i g = some (absorbAll g (sourceBytes m src i n)) := by
  induction n generalizing i g with
  | zero => rfl
  | succ n ih =>
    rw [sourceBytes_succ, absorbAll_cons]
    simp only [Engine.absorbRange, memRead, if_pos (show i < src.len by omega)]
    exact ih (by omega) _

end Sys2Proof.Machine
end

