-- ==== Sys2Proof/Laws/Memory.lean ====
section
/-! SUPPORT. Host memory: read after write, and the canonical form every memory operation keeps. -/

namespace Sys2Proof.Machine

@[simp] theorem Memory.read_nil (a : Nat) : Memory.read [] a = unlistedByte := rfl

/-- The canonical form, one cell at a time. -/
theorem Memory.above_cons {lo : Option Nat} {x : Nat} {v : Byte} {rest : Memory} :
    Memory.above lo ((x, v) :: rest) = true ↔
      (∀ y ∈ lo, y < x) ∧ v ≠ unlistedByte ∧ Memory.above (some x) rest = true := by
  cases lo <;> simp [Memory.above, liesAbove, and_assoc]

/-- An address below every listed one reads as the unlisted byte. -/
theorem Memory.read_of_above {m : Memory} {lo : Nat} (h : Memory.above (some lo) m = true) {a : Nat}
    (ha : a ≤ lo) : Memory.read m a = unlistedByte := by
  induction m generalizing lo with
  | nil => rfl
  | cons cell rest ih =>
    obtain ⟨x, v⟩ := cell
    simp only [Memory.above_cons] at h
    have := h.1 lo rfl
    have hx : a ≠ x := by omega
    simp only [Memory.read, if_neg hx]
    exact ih h.2.2 (by omega)

/-- The bound of `above` may be lowered or dropped. -/
theorem Memory.above_mono {m : Memory} {lo : Nat} (h : Memory.above (some lo) m = true) {lo' : Option Nat}
    (hle : ∀ y ∈ lo', y ≤ lo) : Memory.above lo' m = true := by
  cases m with
  | nil => cases lo' <;> rfl
  | cons cell rest =>
    obtain ⟨x, v⟩ := cell
    simp only [Memory.above_cons] at h ⊢
    refine ⟨fun y hy => ?_, h.2⟩
    have := hle y hy
    have := h.1 lo rfl
    omega

/-- A write keeps the canonical form above any bound below its address. -/
theorem Memory.write_above {m : Memory} {lo : Option Nat} (h : Memory.above lo m = true) {a : Nat}
    (ha : ∀ y ∈ lo, y < a) (v : Byte) : Memory.above lo (Memory.write m a v) = true := by
  induction m generalizing lo with
  | nil =>
    simp only [Memory.write]
    split
    · cases lo <;> rfl
    · next hv => exact Memory.above_cons.mpr ⟨ha, hv, rfl⟩
  | cons cell rest ih =>
    obtain ⟨x, u⟩ := cell
    have hb : Memory.above lo ((x, u) :: rest) = true := h
    simp only [Memory.above_cons] at h
    simp only [Memory.write]
    split
    · next hlt =>
      split
      · exact hb
      · next hv =>
        simp only [Memory.above_cons]
        exact ⟨ha, hv, fun y hy => by obtain rfl : a = y := Option.some.inj hy; exact hlt, h.2⟩
    · next hlt =>
      split
      · next heq =>
        subst heq
        split
        · exact Memory.above_mono h.2.2 fun y hy => Nat.le_of_lt (ha y hy)
        · next hv =>
          simp only [Memory.above_cons]
          exact ⟨ha, hv, h.2.2⟩
      · next hne =>
        simp only [Memory.above_cons]
        exact ⟨h.1, h.2.1, ih h.2.2 fun y hy => by
          obtain rfl : x = y := Option.some.inj hy
          omega⟩

/-- A write keeps the canonical form. -/
theorem Memory.write_wf {m : Memory} (h : m.wf = true) (a : Nat) (v : Byte) : (Memory.write m a v).wf = true :=
  Memory.write_above h (fun _ hy => by cases hy) v

/-- Reset memory has the canonical form. -/
theorem State.reset_mem_wf : State.reset.mem.wf = true := rfl

/-- A write leaves every other address alone. -/
theorem Memory.read_write_ne (m : Memory) {a b : Nat} (h : b ≠ a) (v : Byte) :
    Memory.read (Memory.write m a v) b = Memory.read m b := by
  induction m with
  | nil => simp only [Memory.write]; split <;> simp [Memory.read, h]
  | cons cell rest ih =>
    obtain ⟨x, u⟩ := cell
    simp only [Memory.write]
    split
    · split <;> simp [Memory.read, h]
    · split
      · next hx => subst hx; split <;> simp [Memory.read, h]
      · simp [Memory.read, ih]

/-- Read after write, in a memory of canonical form. -/
theorem Memory.read_write_same_above {m : Memory} {lo : Option Nat} (h : Memory.above lo m = true) (a : Nat)
    (v : Byte) : Memory.read (Memory.write m a v) a = v := by
  induction m generalizing lo with
  | nil => simp only [Memory.write]; split <;> simp_all [Memory.read]
  | cons cell rest ih =>
    obtain ⟨x, u⟩ := cell
    simp only [Memory.above_cons] at h
    simp only [Memory.write]
    split
    · next hlt =>
      split
      · next hv =>
        simp only [Memory.read, if_neg (Nat.ne_of_lt hlt), hv]
        exact Memory.read_of_above h.2.2 (Nat.le_of_lt hlt)
      · simp [Memory.read]
    · split
      · next heq =>
        subst heq
        split
        · next hv => rw [hv]; exact Memory.read_of_above h.2.2 (Nat.le_refl _)
        · simp [Memory.read]
      · next hne => simp only [Memory.read, if_neg hne]; exact ih h.2.2

/-- Read after write gives the value written. -/
theorem Memory.read_write_same {m : Memory} (h : m.wf = true) (a : Nat) (v : Byte) :
    Memory.read (Memory.write m a v) a = v :=
  Memory.read_write_same_above h a v

/-- All that `memRead` can do. -/
theorem memRead_eq_some {m : Memory} {q : Seq} {i : Nat} {b : Byte} :
    memRead m q i = some b ↔ i < q.len ∧ m.read (q.base + i) = b := by
  unfold memRead
  split <;> simp_all

/-- All that `memWrite` can do. -/
theorem memWrite_eq_some {m m' : Memory} {q : Seq} {i : Nat} {v : Byte} :
    memWrite m q i v = some m' ↔ i < q.len ∧ m.write (q.base + i) v = m' := by
  unfold memWrite
  split <;> simp_all

/-- Writing bytes within the sequence succeeds. -/
theorem writeBytes_isSome {dst : Seq} {bs : List Byte} {i : Nat} (h : i + bs.length ≤ dst.len) (m : Memory) :
    ∃ m', writeBytes dst bs i m = some m' := by
  induction bs generalizing i m with
  | nil => exact ⟨m, rfl⟩
  | cons b bs ih =>
    simp only [List.length_cons] at h
    have hi : i < dst.len := by omega
    simp only [writeBytes, memWrite, if_pos hi]
    exact ih (by omega) _

/-- All that `writeBytes` does when it succeeds: the bytes stand at consecutive addresses, every other
address reads as before, and the canonical form is kept. -/
theorem writeBytes_spec {dst : Seq} {bs : List Byte} {i : Nat} {m m' : Memory}
    (h : writeBytes dst bs i m = some m') :
    (∀ a, (a < dst.base + i ∨ dst.base + i + bs.length ≤ a) → m'.read a = m.read a) ∧
    (m.wf = true → m'.wf = true ∧ ∀ k, (hk : k < bs.length) → m'.read (dst.base + i + k) = bs[k]) := by
  induction bs generalizing i m with
  | nil => cases h; exact ⟨fun _ _ => rfl, fun hm => ⟨hm, fun k hk => by cases hk⟩⟩
  | cons b bs ih =>
    simp only [writeBytes] at h
    split at h
    · cases h
    · next m1 hm1 =>
      obtain ⟨-, rfl⟩ := memWrite_eq_some.mp hm1
      obtain ⟨frame, stored⟩ := ih h
      constructor
      · intro a ha
        simp only [List.length_cons] at ha
        rw [frame a (by omega), Memory.read_write_ne m (by omega)]
      · intro hm
        obtain ⟨hwf, hread⟩ := stored (Memory.write_wf hm _ _)
        refine ⟨hwf, fun k hk => ?_⟩
        cases k with
        | zero => rw [frame _ (by omega)]; exact Memory.read_write_same hm _ _
        | succ k =>
          have := hread k (by simpa using hk)
          simpa [Nat.add_assoc, Nat.add_comm 1] using this

/-- A digest has 20 bytes. -/
@[simp] theorem digestOf_length (h : Vector Word 5) : (digestOf h).length = 20 := by
  simp [digestOf, List.length_flatMap]

end Sys2Proof.Machine
end

