-- ==== Sys2Proof/Laws/PaddingFsm.lean ====
section
/-! SUPPORT. The padding FSM: its loops as absorbed byte strings, its run as FINISH, OUTPUT and
RESET_STATE. -/

namespace Sys2Proof.Machine

open Reference

@[simp] theorem Engine.inPhase_phase (g : Engine) (p : Phase) : (g.inPhase p).phase = p := rfl

@[simp] theorem Engine.inPhase_context (g : Engine) (p : Phase) : (g.inPhase p).context = g.context := rfl

@[simp] theorem Engine.inPhase_h (g : Engine) (p : Phase) : (g.inPhase p).h = g.h := rfl

@[simp] theorem Engine.inPhase_bl (g : Engine) (p : Phase) : (g.inPhase p).bl = g.bl := rfl

@[simp] theorem Engine.inPhase_byteCount (g : Engine) (p : Phase) : (g.inPhase p).byteCount = g.byteCount := rfl

@[simp] theorem Engine.inPhase_position (g : Engine) (p : Phase) : (g.inPhase p).position = g.position := rfl

@[simp] theorem Engine.inPhase_inPhase (g : Engine) (p q : Phase) : (g.inPhase p).inPhase q = g.inPhase q := rfl

@[simp] theorem Engine.latchLength_context (g : Engine) : g.latchLength.context = g.context := rfl

@[simp] theorem Engine.latchLength_bl (g : Engine) : g.latchLength.bl = g.byteCount * 8 := rfl

/-- A fold commutes with a change of phase when each of its steps does. -/
theorem Engine.foldl_inPhase {α : Type} {f : Engine → α → Engine} {p : Phase}
    (hf : ∀ g k, f (g.inPhase p) k = (f g k).inPhase p) (g : Engine) (ks : List α) :
    ks.foldl f (g.inPhase p) = (ks.foldl f g).inPhase p := by
  induction ks generalizing g with
  | nil => rfl
  | cons k ks ih => rw [List.foldl_cons, List.foldl_cons, hf, ih]

@[simp] theorem Engine.setW_inPhase (g : Engine) (p : Phase) (i : Nat) (v : Word) :
    (g.inPhase p).setW i v = (g.setW i v).inPhase p := by
  unfold Engine.setW; split <;> rfl

@[simp] theorem Engine.expand_inPhase (g : Engine) (p : Phase) : (g.inPhase p).expand = g.expand.inPhase p := by
  unfold Engine.expand
  exact Engine.foldl_inPhase (fun g' k => Engine.setW_inPhase g' p k _) g _

@[simp] theorem Engine.rounds_inPhase (g : Engine) (p : Phase) : (g.inPhase p).rounds = g.rounds.inPhase p := by
  unfold Engine.rounds
  exact Engine.foldl_inPhase (fun _ _ => rfl) g _

theorem Engine.initWorking_inPhase (g : Engine) (p : Phase) :
    (g.inPhase p).initWorking = g.initWorking.inPhase p := rfl

theorem Engine.feedForward_inPhase (g : Engine) (p : Phase) :
    (g.inPhase p).feedForward = g.feedForward.inPhase p := rfl

@[simp] theorem Engine.processBlock_inPhase (g : Engine) (p : Phase) :
    (g.inPhase p).processBlock = g.processBlock.inPhase p := by
  rw [Engine.processBlock, Engine.expand_inPhase, Engine.initWorking_inPhase, Engine.rounds_inPhase,
    Engine.feedForward_inPhase, Engine.processBlock]

@[simp] theorem Engine.dispatchBlock_inPhase (g : Engine) (p : Phase) :
    (g.inPhase p).dispatchBlock = g.dispatchBlock.inPhase p := by
  rw [Engine.dispatchBlock, Engine.processBlock_inPhase]
  rfl

@[simp] theorem Engine.storeWord_inPhase (g : Engine) (p : Phase) (v : Word) :
    (g.inPhase p).storeWord v = (g.storeWord v).inPhase p := by
  rw [Engine.storeWord, Engine.setW_inPhase]
  rfl

@[simp] theorem Engine.processWord_inPhase (g : Engine) (p : Phase) (v : Word) :
    (g.inPhase p).processWord v = (g.processWord v).inPhase p := by
  have hx : (g.inPhase p).xoff = g.xoff := rfl
  rw [Engine.processWord, Engine.processWord, Engine.storeWord_inPhase, Engine.dispatchBlock_inPhase, hx]
  split <;> rfl

theorem Engine.storeByte_inPhase (g : Engine) (p : Phase) (b : Byte) :
    (g.inPhase p).storeByte b = (g.storeByte b).inPhase p := rfl

theorem Engine.bufferWord_inPhase (g : Engine) (p : Phase) : (g.inPhase p).bufferWord = g.bufferWord := rfl

theorem Engine.clearBuffer_inPhase (g : Engine) (p : Phase) :
    (g.inPhase p).clearBuffer = g.clearBuffer.inPhase p := rfl

/-- ABSORB does not read the phase. -/
@[simp] theorem Engine.absorb_inPhase (g : Engine) (p : Phase) (b : Byte) :
    (g.inPhase p).absorb b = (g.absorb b).inPhase p := by
  have hx : (g.inPhase p).xbufOff = g.xbufOff := rfl
  rw [Engine.absorb, Engine.storeByte_inPhase, Engine.bufferWord_inPhase, Engine.processWord_inPhase,
    Engine.clearBuffer_inPhase, Engine.absorb, hx]
  split <;> rfl

@[simp] theorem absorbAll_inPhase (g : Engine) (p : Phase) (bs : List Byte) :
    absorbAll (g.inPhase p) bs = (absorbAll g bs).inPhase p :=
  Engine.foldl_inPhase (fun g' b => Engine.absorb_inPhase g' p b) g bs

@[simp] theorem Engine.finSentinel_inPhase (g : Engine) (p : Phase) :
    (g.inPhase p).finSentinel = g.finSentinel.inPhase p :=
  Engine.absorb_inPhase g.latchLength p 0x80

/-- FIN_SENTINEL latches the length and absorbs one byte. -/
@[simp] theorem Engine.finSentinel_bl (g : Engine) : g.finSentinel.bl = g.byteCount * 8 := by
  simp [Engine.finSentinel]

theorem Engine.absorbZeros_inPhase (n : Nat) (g : Engine) (p : Phase) :
    (g.inPhase p).absorbZeros n = (g.absorbZeros n).inPhase p := by
  induction n generalizing g with
  | zero => rfl
  | succ n ih =>
    simp only [Engine.absorbZeros, Engine.inPhase_position, Engine.absorb_inPhase, ih]
    split <;> rfl

@[simp] theorem Engine.finZero_inPhase (g : Engine) (p : Phase) :
    (g.inPhase p).finZero = g.finZero.inPhase p :=
  Engine.absorbZeros_inPhase 128 g p

/-- The zero loop absorbs some number of zero bytes. -/
theorem Engine.absorbZeros_eq (n : Nat) (g : Engine) :
    ∃ k, k ≤ n ∧ g.absorbZeros n = absorbAll g (List.replicate k 0) := by
  induction n generalizing g with
  | zero => exact ⟨0, le_rfl, rfl⟩
  | succ n ih =>
    unfold Engine.absorbZeros
    split
    · exact ⟨0, by omega, rfl⟩
    · obtain ⟨k, hk, he⟩ := ih (g.absorb 0)
      exact ⟨k + 1, by omega, by rw [he, List.replicate_succ, absorbAll_cons]⟩

/-- With the offsets in range the zero loop absorbs exactly the zero bytes up to position 56. -/
theorem Engine.absorbZeros_exact {n k : Nat} {g : Engine} (hx : g.xoff.toNat ≤ 15)
    (hk : (120 - g.position) % 64 = k) (hn : k ≤ n) :
    g.absorbZeros n = absorbAll g (List.replicate k 0) := by
  have hpos : g.position < 64 := by have := g.xbufOff.isLt; unfold Engine.position; omega
  induction n generalizing g k with
  | zero => obtain rfl : k = 0 := by omega
            rfl
  | succ n ih =>
    unfold Engine.absorbZeros
    split
    · next h =>
      obtain rfl : k = 0 := by omega
      rfl
    · next h =>
      obtain ⟨j, rfl⟩ : ∃ j, k = j + 1 := ⟨k - 1, by omega⟩
      obtain ⟨hp, hx'⟩ := Engine.absorb_position hx 0
      rw [ih hx' (k := j) (by rw [hp]; omega) (by omega) (by rw [hp]; omega), List.replicate_succ, absorbAll_cons]

/-- FIN_ZERO keeps the latched length. -/
@[simp] theorem Engine.finZero_bl (g : Engine) : g.finZero.bl = g.bl := by
  obtain ⟨k, -, h⟩ := Engine.absorbZeros_eq 128 g
  rw [Engine.finZero, h, absorbAll_bl]

/-- FIN_LENGTH absorbs the eight bytes of `BL`. -/
theorem Engine.finLength_eq (g : Engine) :
    g.finLength = absorbAll g ((List.range 8).map (lengthByte g.bl)) := by
  have key : ∀ (ks : List Nat) (g' : Engine), g'.bl = g.bl →
      ks.foldl (fun e k => e.absorb (lengthByte e.bl k)) g' = absorbAll g' (ks.map (lengthByte g.bl)) := by
    intro ks
    induction ks with
    | nil => intro _ _; rfl
    | cons k ks ih =>
      intro g' hg
      rw [List.foldl_cons, List.map_cons, absorbAll_cons, hg]
      exact ih _ (by rw [Engine.absorb_bl, hg])
  exact key _ g rfl

@[simp] theorem Engine.finLength_inPhase (g : Engine) (p : Phase) :
    (g.inPhase p).finLength = g.finLength.inPhase p := by
  rw [Engine.finLength_eq, Engine.finLength_eq, Engine.inPhase_bl, absorbAll_inPhase]

/-- The whole run of the FSM from `FIN_SENTINEL`: FINISH, then OUTPUT, then RESET_STATE (41_padding_fsm.md
R120, R124). -/
theorem runFsm_eq {dst : Seq} {doff : Nat} {g : Engine} {m : Memory} :
    runFsm dst doff 5 ⟨g.inPhase .finSentinel, m⟩ =
      (output dst doff g.finish.h m).map fun m' => ⟨(g.finish.inPhase .finReset).resetState, m'⟩ := by
  simp only [runFsm, fsmStep, Engine.inPhase_phase, Engine.finSentinel_inPhase, Engine.inPhase_inPhase,
    Engine.finZero_inPhase, Engine.finLength_inPhase, reduceCtorEq, if_false, Engine.inPhase_h, Engine.finish]
  cases output dst doff g.finSentinel.finZero.finLength.h m with
  | none => rfl
  | some m' => simp

/-- OUTPUT within the sequence succeeds. -/
theorem output_isSome {dst : Seq} {doff : Nat} (h : doff + 20 ≤ dst.len) (hw : Vector Word 5) (m : Memory) :
    ∃ m', output dst doff hw m = some m' :=
  writeBytes_isSome (by simpa using h) m

end Sys2Proof.Machine
end

