-- ==== Sys2Proof/Laws/PerInstr.lean ====
section
/-! SUPPORT. Statements made of each command in turn. -/

namespace Sys2Proof.Laws

/-- The row of the opcode map a command belongs to (30_encoding.md R75). -/
def row (op : Opcode) : Row :=
  match op with
  | .update => ⟨.update, 0x10000000, 0xFFFFFF00⟩
  | .blockUpdate => ⟨.blockUpdate, 0x20000000, 0xFFFFFFFF⟩
  | .doFinal => ⟨.doFinal, 0x30000000, 0xFFFFFFFF⟩
  | .reset => ⟨.reset, 0x40000000, 0xFFFFFFFF⟩
  | .digestSize => ⟨.digestSize, 0x50000000, 0xFFFFFFFF⟩
  | .algorithmName => ⟨.algorithmName, 0x60000000, 0xFFFFFFFF⟩
  | .ctxSave => ⟨.ctxSave, 0x70000000, 0xFFFFFFFF⟩
  | .ctxLoad => ⟨.ctxLoad, 0x80000000, 0xFFFFFFFF⟩

/-- The command's word has a zero reserved field, carries its `IMM8`, selects its own row of the opcode map
and no other (30_encoding.md R71, R75). -/
def EncodeRow.Statement (i : Instr) : Prop :=
  rsvField (encodeWord i) = 0 ∧ immField (encodeWord i) = i.imm8 ∧ row i.opcode ∈ opcodeMap ∧
    ∀ r ∈ opcodeMap, r.Selects (encodeWord i) ↔ r = row i.opcode

/-- The rows a command word with the given `IMM8` selects. -/
theorem selects_iff (op : Opcode) (b : Byte) (h : op = .update ∨ b = 0) :
    row op ∈ opcodeMap ∧ ∀ r ∈ opcodeMap, r.Selects (commandWord op b) ↔ r = row op := by
  revert b
  cases op <;> decide +kernel

theorem EncodeRow.of_head (i : Instr) (h : i.opcode = .update ∨ i.imm8 = 0) : EncodeRow.Statement i :=
  ⟨rsvField_commandWord _ _, immField_commandWord _ _, selects_iff _ _ h⟩

theorem EncodeRow.update (imm8 : Byte) : EncodeRow.Statement (.update imm8) := of_head _ (.inl rfl)

theorem EncodeRow.blockUpdate (src : Seq) (off len : BitVec 32) : EncodeRow.Statement (.blockUpdate src off len) :=
  of_head _ (.inr rfl)

theorem EncodeRow.doFinal (dst : Seq) (doff : BitVec 32) : EncodeRow.Statement (.doFinal dst doff) :=
  of_head _ (.inr rfl)

theorem EncodeRow.reset : EncodeRow.Statement .reset := of_head _ (.inr rfl)

theorem EncodeRow.digestSize : EncodeRow.Statement .digestSize := of_head _ (.inr rfl)

theorem EncodeRow.algorithmName : EncodeRow.Statement .algorithmName := of_head _ (.inr rfl)

theorem EncodeRow.ctxSave : EncodeRow.Statement .ctxSave := of_head _ (.inr rfl)

theorem EncodeRow.ctxLoad (ctxin : Context) : EncodeRow.Statement (.ctxLoad ctxin) := of_head _ (.inr rfl)

end Sys2Proof.Laws
end

