-- ==== Sys2Proof/Laws/Step.lean ====
section
/-! SUPPORT. One spec lemma per meaning, and what any command, and any step, can do. -/

namespace Sys2Proof.Machine

open Reference

/-- int32 operands within bounds are the naturals their bits say. -/
theorem int32_toNat {v : BitVec 32} (h : 0 ≤ int32 v) : (int32 v).toNat = v.toNat ∧ (v.toNat : Int) = int32 v := by
  have h' : (0 : Int) ≤ v.toInt := h
  have hi : (v.toNat : Int) = v.toInt := by
    rw [BitVec.toInt_eq_toNat_cond] at h' ⊢
    split
    · rfl
    · have := v.isLt
      rw [if_neg (by assumption)] at h'
      omega
  exact ⟨by unfold int32; omega, hi⟩

/-- UPDATE on an existing engine. -/
theorem execUpdate_eq {s : State} {g : Engine} (hg : s.engine? = some g) (b : Byte) :
    execUpdate b s =
      .next (if updateOverflows g.byteCount then s.raise .lengthOverflow
        else s.commit ((g.absorb b).addCount 1) 0 .none) := by
  rw [execUpdate, State.onEngine_of_engine? hg]
  split <;> rfl

/-- BLOCK_UPDATE on an existing engine: its reads stay within the sequence. -/
theorem execBlockUpdate_eq {s : State} {g : Engine} (hg : s.engine? = some g) (src : Seq) (off len : BitVec 32) :
    execBlockUpdate src off len s =
      .next (if sourceOutOfRange src off len then s.raise .outOfRange
        else if rangeOverflows g.byteCount len then s.raise .lengthOverflow
        else s.commit ((absorbAll g (sourceBytes s.mem src (int32 off).toNat (int32 len).toNat)).addCount
          (int32 len).toNat) 0 .none) := by
  rw [execBlockUpdate, State.onEngine_of_engine? hg]
  split
  · rfl
  · next h =>
    split
    · rfl
    · rw [Engine.absorbRange_eq (by omega)]

/-- DO_FINAL on an existing engine: its writes stay within the sequence. -/
theorem execDoFinal_eq {s : State} {g : Engine} (hg : s.engine? = some g) (dst : Seq) (doff : BitVec 32) :
    (outputOutOfRange dst doff ∧ execDoFinal dst doff s = .next (s.raise .outOfRange)) ∨
    (¬ outputOutOfRange dst doff ∧ ∃ m, output dst (int32 doff).toNat g.finish.h s.mem = some m ∧
      execDoFinal dst doff s =
        .next (State.commit { s with mem := m } (g.finish.inPhase .finReset).resetState 20 .none)) := by
  rw [execDoFinal, State.onEngine_of_engine? hg]
  by_cases h : outputOutOfRange dst doff
  · exact .inl ⟨h, if_pos h⟩
  · obtain ⟨m, hm⟩ := output_isSome (dst := dst) (doff := (int32 doff).toNat) (by omega) g.finish.h s.mem
    refine .inr ⟨h, m, hm, ?_⟩
    rw [if_neg h, runFsm_eq, hm]
    rfl

/-- CTX_LOAD on an existing engine. -/
theorem execCtxLoad_eq {s : State} {g : Engine} (hg : s.engine? = some g) (k : Context) :
    execCtxLoad k s =
      .next (if contextInvalid k then s.raise .invalidContext else s.commit (g.loadContext k) 0 .none) := by
  rw [execCtxLoad, State.onEngine_of_engine? hg]
  split <;> rfl

/-- RESET, DIGEST_SIZE, ALGORITHM_NAME and CTX_SAVE on an existing engine. -/
theorem execReset_eq {s : State} {g : Engine} (hg : s.engine? = some g) :
    execReset s = .next (s.commit g.resetState 0 .none) := by
  rw [execReset, State.onEngine_of_engine? hg]

theorem execDigestSize_eq {s : State} {g : Engine} (hg : s.engine? = some g) :
    execDigestSize s = .next (s.answer 20 .none) := by
  rw [execDigestSize, State.onEngine_of_engine? hg]

theorem execAlgorithmName_eq {s : State} {g : Engine} (hg : s.engine? = some g) :
    execAlgorithmName s = .next (s.answer 5 (.bytes algorithmNameBytes)) := by
  rw [execAlgorithmName, State.onEngine_of_engine? hg]

theorem execCtxSave_eq {s : State} {g : Engine} (hg : s.engine? = some g) :
    execCtxSave s = .next (s.answer 0 (.context g.context)) := by
  rw [execCtxSave, State.onEngine_of_engine? hg]

/-- A command to an instance that does not exist is refused. -/
theorem exec_noEngine {s : State} (h : s.engine? = none) (i : Instr) : exec i s = .refused .noSuchInstance := by
  cases i <;>
    simp [exec, execUpdate, execBlockUpdate, execDoFinal, execReset, execDigestSize, execAlgorithmName,
      execCtxSave, execCtxLoad, State.onEngine, h]

/-- The three ways a command on an existing engine ends: it raises a status and changes nothing, it reports
and changes nothing, or it commits an engine state. -/
inductive Ending (s : State) : State → Prop where
  | raised (st : Status) (h : st ≠ .ok) : Ending s (s.raise st)
  | reported (r : BitVec 32) (x : Data) : Ending s (s.answer r x)
  | committed (m : Memory) (g : Engine) (r : BitVec 32) (x : Data) : Ending s (State.commit { s with mem := m } g r x)

/-- Every command on an existing engine answers a next state, in one of the three ways. -/
theorem exec_ending {s : State} {g : Engine} (hg : s.engine? = some g) (i : Instr) :
    ∃ t, exec i s = .next t ∧ Ending s t := by
  cases i with
  | update b =>
    refine ⟨_, execUpdate_eq hg b, ?_⟩
    split
    · exact .raised _ (by decide)
    · exact .committed s.mem _ _ _
  | blockUpdate src off len =>
    refine ⟨_, execBlockUpdate_eq hg src off len, ?_⟩
    split
    · exact .raised _ (by decide)
    · split
      · exact .raised _ (by decide)
      · exact .committed s.mem _ _ _
  | doFinal dst doff =>
    obtain ⟨-, h⟩ | ⟨-, m, -, h⟩ := execDoFinal_eq hg dst doff
    · exact ⟨_, h, .raised _ (by decide)⟩
    · exact ⟨_, h, .committed m _ _ _⟩
  | reset => exact ⟨_, execReset_eq hg, .committed s.mem _ _ _⟩
  | digestSize => exact ⟨_, execDigestSize_eq hg, .reported _ _⟩
  | algorithmName => exact ⟨_, execAlgorithmName_eq hg, .reported _ _⟩
  | ctxSave => exact ⟨_, execCtxSave_eq hg, .reported _ _⟩
  | ctxLoad k =>
    refine ⟨_, execCtxLoad_eq hg k, ?_⟩
    split
    · exact .raised _ (by decide)
    · exact .committed s.mem _ _ _

/-- What every ending keeps, and the one response it appends. -/
theorem Ending.frame {s t : State} (h : Ending s t) :
    t.queue = s.queue ∧ t.target = s.target ∧ t.engines.length = s.engines.length ∧
    (∀ n, n ≠ s.target → t.engines[n]? = s.engines[n]?) ∧
    ∃ r, t.responses = s.responses ++ [r] ∧ r.inst = s.target := by
  cases h with
  | raised st _ => exact ⟨rfl, rfl, rfl, fun _ _ => rfl, _, rfl, rfl⟩
  | reported r x => exact ⟨rfl, rfl, rfl, fun _ _ => rfl, _, rfl, rfl⟩
  | committed m g r x =>
    exact ⟨rfl, rfl, by simp, fun n hn => State.commit_other _ g r x hn, _, rfl, rfl⟩

/-- The addressed engine exists in a state that has accepted a transaction to an existing instance. -/
theorem State.accept_engine? {s : State} {tx : Transaction} {rest : List Transaction}
    (h : tx.inst < s.engines.length) : ∃ g, (s.accept tx rest).engine? = some g ∧ g ∈ s.engines := by
  have hs : (s.accept tx rest).engine? = some s.engines[tx.inst] := by simp [State.engine?, h]
  exact ⟨_, hs, List.getElem_mem h⟩

/-- With nothing issued nothing happens. -/
theorem step_idle {s : State} (h : s.queue = []) : step s = .next s := by
  simp [step, fetch, h, carryOut]

/-- A step with a command issued is what its transaction makes. -/
theorem step_cons {s : State} {tx : Transaction} {rest : List Transaction} (h : s.queue = tx :: rest) :
    step s = carryOut s (fetchHead s tx rest) := by
  simp [step, fetch, h]

/-- What makes the oldest transaction one of two overlapping commands: its own mark, or that of the next
transaction to its instance. -/
theorem overlaps_iff {tx : Transaction} {rest : List Transaction} :
    overlaps tx rest ↔ tx.conduct = .overlapping ∨
      ∃ between next later, rest = between ++ next :: later ∧ (∀ b ∈ between, b.inst ≠ tx.inst) ∧
        next.inst = tx.inst ∧ next.conduct = .overlapping := by
  refine or_congr Iff.rfl ?_
  simp only [Option.map_eq_some_iff, List.find?_eq_some_iff_append]
  constructor
  · rintro ⟨next, ⟨hn, between, later, rfl, hb⟩, hc⟩
    exact ⟨between, next, later, rfl, fun b h => by simpa using hb b h, by simpa using hn, hc⟩
  · rintro ⟨between, next, later, rfl, hb, hn, hc⟩
    exact ⟨next, ⟨by simpa using hn, between, later, rfl, fun b h => by simpa using hb b h⟩, hc⟩

/-- The fetch of an overlapping command to an existing instance. -/
theorem fetchHead_overlapping {s : State} {tx : Transaction} {rest : List Transaction}
    (h1 : tx.inst < s.engines.length) (h2 : overlaps tx rest) :
    fetchHead s tx rest = .refuse .overlappingCommands := by
  rw [fetchHead, if_neg (by omega), if_pos h2]

/-- The fetch of a decoded command to an existing instance. -/
theorem fetchHead_command {s : State} {tx : Transaction} {rest : List Transaction} {i : Instr}
    (h1 : tx.inst < s.engines.length) (h2 : ¬ overlaps tx rest)
    (hd : decode tx.cmd tx.operands = .command i) :
    fetchHead s tx rest =
      if tx.conduct = .bufferTouched ∧ hasBuffer i = true then .refuse .bufferTouched
      else .run i (s.accept tx rest) := by
  rw [fetchHead, if_neg (by omega), if_neg h2, hd]

/-- The fetch of an illegal word to an existing instance. -/
theorem fetchHead_illegal {s : State} {tx : Transaction} {rest : List Transaction}
    (h1 : tx.inst < s.engines.length) (h2 : ¬ overlaps tx rest)
    (hd : decode tx.cmd tx.operands = .illegal) : fetchHead s tx rest = .illegal (s.accept tx rest) := by
  rw [fetchHead, if_neg (by omega), if_neg h2, hd]

/-- The fetch of a transaction the decoder rejects. -/
theorem fetchHead_rejected {s : State} {tx : Transaction} {rest : List Transaction} {why : Rejection}
    (h1 : tx.inst < s.engines.length) (h2 : ¬ overlaps tx rest)
    (hd : decode tx.cmd tx.operands = .rejected why) : fetchHead s tx rest = .refuse (refusalOf why) := by
  rw [fetchHead, if_neg (by omega), if_neg h2, hd]

/-- A word is illegal for `decode` exactly when `decodeWord` rejects it, whatever the operands. -/
theorem decode_illegal_iff {cmd : BitVec 32} {ops : Operands} :
    decode cmd ops = .illegal ↔ decodeWord cmd = none := by
  unfold decode
  split
  · next h => simp [h]
  · next hd h =>
    simp only [h, reduceCtorEq, iff_false]
    split
    · simp
    · split <;> simp

/-- All that a step with a next state can have done: nothing, an illegal word answered, or a command run. -/
theorem step_next {s t : State} (h : step s = .next t) :
    (s.queue = [] ∧ t = s) ∨
    ∃ tx rest, s.queue = tx :: rest ∧ tx.inst < s.engines.length ∧
      ((decodeWord tx.cmd = none ∧ t = (s.accept tx rest).raise .illegalCommand) ∨
        ∃ i, decode tx.cmd tx.operands = .command i ∧ exec i (s.accept tx rest) = .next t) := by
  cases hq : s.queue with
  | nil =>
    rw [step_idle hq] at h
    cases h
    exact .inl ⟨rfl, rfl⟩
  | cons tx rest =>
    rw [step_cons hq] at h
    refine .inr ⟨tx, rest, rfl, ?_⟩
    by_cases h1 : tx.inst < s.engines.length
    · refine ⟨h1, ?_⟩
      by_cases h2 : overlaps tx rest
      · rw [fetchHead_overlapping h1 h2] at h
        cases h
      · cases hd : decode tx.cmd tx.operands with
        | illegal =>
          rw [fetchHead_illegal h1 h2 hd] at h
          cases h
          exact .inl ⟨decode_illegal_iff.mp hd, rfl⟩
        | rejected why =>
          rw [fetchHead_rejected h1 h2 hd] at h
          cases h
        | command i =>
          rw [fetchHead_command h1 h2 hd] at h
          split at h
          · cases h
          · exact .inr ⟨i, rfl, h⟩
    · rw [fetchHead, if_pos (by omega)] at h
      cases h

end Sys2Proof.Machine
end

