-- ==== Sys2Proof/Tests/Slice0.lean ====
section
/-! SUPPORT. Tests: expected values are those of 95_test_vectors.md and of the rules named; and a witness for
the hypotheses of each statement. -/

namespace Sys2Proof.Tests

open Sys2Proof.Machine Sys2Proof.Claims

/-! ### Helpers -/

/-- A platform of one engine and a host memory. -/
def one (g : Engine) (m : Memory) : State :=
  { engines := [g], mem := m, queue := [], target := 0, responses := [], free := 0 }

/-- An engine in its reset state with a record loaded. -/
def engineOf (k : Context) : Engine := Engine.reset.loadContext k

/-- A record with the reset hash values. -/
def record (xbuf : Vector Byte 4) (xbufOff : BitVec 8) (w : Vector Word 16) (xoff : BitVec 8) (n : BitVec 64) :
    Context :=
  { resetContext with xbuf := xbuf, xbufOff := xbufOff, w := w, xoff := xoff, byteCount := n }

/-- No word of the block filled. -/
def noWords : Vector Word 16 := Vector.replicate 16 0

/-- The state after "abc" (95_test_vectors.md family H). -/
def abc : Context := record #v[0x61, 0x62, 0x63, 0x00] 3 noWords 0 3

/-- `CTXMAX` (95_test_vectors.md family F). -/
def ctxMax : Context :=
  record #v[0x11, 0x22, 0x33, 0x00] 3
    #v[0x01010101, 0x02020202, 0x03030303, 0x04040404, 0x05050505, 0x06060606, 0x07070707, 0x08080808,
      0x09090909, 0x0a0a0a0a, 0x0b0b0b0b, 0x0c0c0c0c, 0x0d0d0d0d, 0x0e0e0e0e, 0x0f0f0f0f, 0] 15
    2305843009213693951

/-- A run of equal bytes in host memory. -/
def filled (base n : Nat) (b : Byte) : Memory := (List.range n).map fun i => (base + i, b)

/-- The outcome is a next state that passes a check. -/
def shows (o : Host.Outcome State Fault Refusal) (f : State → Bool) : Bool :=
  match o with
  | .next t => f t
  | .fault _ => false
  | .refused _ => false

/-- The outcome is this refusal. -/
def refuses (o : Host.Outcome State Fault Refusal) (r : Refusal) : Bool :=
  match o with
  | .next _ => false
  | .fault _ => false
  | .refused r' => decide (r' = r)

/-- What passes a check is a next state. -/
theorem next_of_shows {o : Host.Outcome State Fault Refusal} {f : State → Bool} (h : shows o f = true) :
    ∃ t, o = .next t ∧ f t = true := by
  cases o with
  | next t => exact ⟨t, rfl, h⟩
  | fault _ => cases h
  | refused _ => cases h

/-- The engine state, and the status and result of the responses. -/
def ends (k : Context) (rs : List (Status × BitVec 32 × Data)) (t : State) : Bool :=
  decide (t.engines.map Engine.context = [k]) &&
    decide (t.responses.map (fun r => (r.status, r.result, r.data)) = rs)

/-- Bytes of host memory from an address on. -/
def bytesAt (m : Memory) (a n : Nat) : List Byte := (List.range n).map fun i => m.read (a + i)

/-! ### Well-formedness: each check with a term it refuses (30_encoding.md R73) -/

theorem test_blockUpdate_source_too_long_ill_formed : ¬ (Instr.blockUpdate ⟨0, 2 ^ 31⟩ 0 0).WellFormed := by decide

theorem test_doFinal_destination_too_long_ill_formed : ¬ (Instr.doFinal ⟨0, 2 ^ 31⟩ 0).WellFormed := by decide

theorem test_longest_sequence_well_formed : (Instr.blockUpdate ⟨0, 2 ^ 31 - 1⟩ 0 0).WellFormed := by decide

/-! ### Decoding, words written out as `OP RSV IMM8` (30_encoding.md R71, R75; 95_test_vectors.md family A) -/

theorem test_decode_update :
    decode 0b0001_00000000000000000000_01100001 .empty = .command (.update 0x61) := by decide

theorem test_decode_blockUpdate :
    decode 0b0010_00000000000000000000_00000000 (.range ⟨5, 9⟩ 3 0xFFFFFFFF) =
      .command (.blockUpdate ⟨5, 9⟩ 3 0xFFFFFFFF) := by decide

theorem test_decode_doFinal :
    decode 0b0011_00000000000000000000_00000000 (.output ⟨5, 20⟩ 1) = .command (.doFinal ⟨5, 20⟩ 1) := by decide

theorem test_decode_reset : decode 0b0100_00000000000000000000_00000000 .empty = .command .reset := by decide

theorem test_decode_digestSize :
    decode 0b0101_00000000000000000000_00000000 .empty = .command .digestSize := by decide

theorem test_decode_algorithmName :
    decode 0b0110_00000000000000000000_00000000 .empty = .command .algorithmName := by decide

theorem test_decode_ctxSave : decode 0b0111_00000000000000000000_00000000 .empty = .command .ctxSave := by decide

theorem test_decode_ctxLoad :
    decode 0b1000_00000000000000000000_00000000 (.context abc) = .command (.ctxLoad abc) := by decide

/-- The illegal words of family A. -/
theorem test_decode_illegal :
    [0x00000000, 0x90000000, 0xF0000000, 0x10000100, 0x1FF00000, 0x40000001, 0x20000080, 0x38000000].map decodeWord =
      List.replicate 8 none := by decide

theorem test_encode_update : encodeWord (.update 0xff) = 0x100000FF := by decide

/-- The words of the opcode table, as the table numbers their bits. -/
theorem test_decodeTableWord :
    [0x10000061, 0x20000000, 0x30000000, 0x40000000, 0x50000000, 0x60000000, 0x70000000, 0x80000000].map
        (decodeTableWord 32) =
      [some (.update 0x61), some (.blockUpdate ⟨0, 0⟩ 0 0), some (.doFinal ⟨0, 0⟩ 0), some .reset, some .digestSize,
        some .algorithmName, some .ctxSave, some (.ctxLoad Context.zero)] := by decide

/-! ### The compression function (95_test_vectors.md families B, C, D, E) -/

theorem test_mixing :
    mixF 0xf0f0f0f0 0xcccccccc 0xaaaaaaaa = 0xcacacaca ∧ mixP 0xf0f0f0f0 0xcccccccc 0xaaaaaaaa = 0x96969696 ∧
      mixG 0xf0f0f0f0 0xcccccccc 0xaaaaaaaa = 0xe8e8e8e8 := by decide

theorem test_rotations :
    rotl 1 0xc3d2e1f0 = 0x87a5c3e1 ∧ rotl 5 0x67452301 = 0xe8a4602c ∧ rotl 30 0x80000000 = 0x20000000 := by decide

/-- The "abc" block (95_test_vectors.md family C). -/
def abcBlock : Engine :=
  engineOf { abc with w := #v[0x61626380, 0, 0, 0, 0, 0, 0, 0, 0, 0, 0, 0, 0, 0, 0, 0x00000018] }

theorem test_expansion :
    [16, 18, 19, 39, 40, 79].map abcBlock.expand.getW =
      [0xc2c4c700, 0x00000030, 0x85898e01, 0x000018c0, 0xd2e138c4, 0x822e0879] := by decide +kernel

/-- The state after `STEP(0)` and `STEP(1)` (95_test_vectors.md family D). -/
theorem test_steps :
    let g := (abcBlock.initWorking.stepAt 0).stepAt 1
    [g.a, g.b, g.c, g.d, g.e] = [0x8990536d, 0x0116fc33, 0x59d148c0, 0x7bf36ae2, 0x98badcfe] := by decide +kernel

/-- PROCESS_BLOCK on all ones (95_test_vectors.md family E). -/
theorem test_processBlock :
    (Engine.processBlock { Engine.reset with w := Vector.replicate 16 0xffffffff }).h =
      #v[0xbafbc2c8, 0x7c333226, 0x03f38e06, 0xc3e0f79c, 0x1f1b1475] := by decide +kernel

/-! ### The commands, one each (95_test_vectors.md families F, G, H, I) -/

/-- Row F2, its last command: the fourth byte makes a big-endian word. -/
theorem test_update_fourth_byte :
    shows (exec (.update 0x64) (one (engineOf abc) []))
      (ends (record #v[0, 0, 0, 0] 0 (noWords.set 0 0x61626364) 1 4) [(.ok, 0, .none)]) = true := by decide +kernel

/-- Row F18. -/
theorem test_update_at_the_limit :
    shows (exec (.update 0x00) (one (engineOf ctxMax) [])) (ends ctxMax [(.lengthOverflow, 0, .none)]) = true := by
  decide +kernel

/-- Row F5: 64 bytes `00 01 .. 3f` run PROCESS_BLOCK once. -/
theorem test_blockUpdate_whole_block :
    shows (exec (.blockUpdate ⟨10, 64⟩ 0 64)
        (one Engine.reset ((List.range 63).map fun i => (11 + i, BitVec.ofNat 8 (i + 1)))))
      (ends
        { resetContext with
          h := #v[0xb9ac757b, 0xbc297925, 0x2e227274, 0x06872f94, 0xcbea56a1], byteCount := 64 }
        [(.ok, 0, .none)]) = true := by decide +kernel

/-- Row F16: the sum is not wrapped. -/
theorem test_blockUpdate_sum_not_wrapped :
    shows (exec (.blockUpdate ⟨0, 3⟩ 2147483647 2147483647) (one (engineOf abc) []))
      (ends abc [(.outOfRange, 0, .none)]) = true := by decide +kernel

/-- Row H2: the digest of "abc" lands at `DOFF`, the bytes before it stay. -/
theorem test_doFinal_abc :
    shows (exec (.doFinal ⟨100, 24⟩ 4) (one (engineOf abc) (filled 100 24 0xee))) (fun t =>
      ends resetContext [(.ok, 20, .none)] t &&
      decide (bytesAt t.mem 100 24 =
        [0xee, 0xee, 0xee, 0xee, 0xa9, 0x99, 0x3e, 0x36, 0x47, 0x06, 0x81, 0x6a, 0xba, 0x3e, 0x25, 0x71,
          0x78, 0x50, 0xc2, 0x6c, 0x9c, 0xd0, 0xd8, 0x9d])) = true := by decide +kernel

/-- `dofinal D, 0` on `CTXMAX`: two blocks, `BL = 0xfffffffffffffff8` (family F, last paragraph). -/
theorem test_doFinal_at_the_limit :
    shows (exec (.doFinal ⟨0, 20⟩ 0) (one (engineOf ctxMax) [])) (fun t =>
      decide (bytesAt t.mem 0 20 =
        [0xf5, 0x9c, 0x9a, 0x29, 0x3d, 0xfd, 0xe3, 0xcb, 0xf8, 0xe5, 0x5d, 0x10, 0x44, 0xdb, 0xe5, 0x62,
          0x72, 0x0f, 0xa8, 0x38])) = true := by decide +kernel

/-- Row I1. -/
theorem test_reset :
    shows (exec .reset (one (engineOf ctxMax) [])) (ends resetContext [(.ok, 0, .none)]) = true := by decide +kernel

/-- Row I3. -/
theorem test_digestSize :
    shows (exec .digestSize (one (engineOf abc) [])) (ends abc [(.ok, 20, .none)]) = true := by decide +kernel

/-- Row I4. -/
theorem test_algorithmName :
    shows (exec .algorithmName (one (engineOf abc) []))
      (ends abc [(.ok, 5, .bytes [0x53, 0x48, 0x41, 0x2d, 0x31])]) = true := by decide +kernel

/-- Row I5. -/
theorem test_ctxSave :
    shows (exec .ctxSave (one (engineOf abc) [])) (ends abc [(.ok, 0, .context abc)]) = true := by decide +kernel

/-- Row I13: a record with 64 more bytes counted is legal. -/
theorem test_ctxLoad_legal :
    shows (exec (.ctxLoad { abc with byteCount := 67 }) (one Engine.reset []))
      (ends { abc with byteCount := 67 } [(.ok, 0, .none)]) = true := by decide +kernel

/-- Rows I7 to I12, and `XBUF_OFF = 5`, which two bits would read as 1: records that are refused. -/
theorem test_ctxLoad_refused :
    ([{ abc with xbufOff := 4 }, { abc with xoff := 16, byteCount := 67 }, { abc with byteCount := 4 },
      { abc with xbuf := #v[0x61, 0x62, 0x63, 0x01] }, { abc with w := noWords.set 0 1 },
      { abc with byteCount := 2305843009213693955 }, { abc with xbufOff := 5, byteCount := 5 }].all fun k =>
      shows (exec (.ctxLoad k) (one Engine.reset [])) (ends resetContext [(.invalidContext, 0, .none)])) = true := by
  decide +kernel

/-! ### The interface -/

/-- The model's sizes are the parameters of 00_scope.md R6. -/
theorem test_parameters :
    Engine.reset.w.size = Config.blockWords ∧ 4 * Config.blockWords = Config.blockBytes ∧
      Engine.reset.w.size + Engine.reset.wx.size = Config.schedWords ∧ 4 * Config.stepsPerRound = Config.schedWords ∧
      Engine.reset.h.size = Config.hashWords ∧ (digestOf initialHash).length = Config.digestBytes ∧
      4 * Config.lengthPositionWords = 56 := by decide

/-- A table word runs as the first command after reset. -/
theorem test_first_step_runs_the_word :
    shows (step (State.reset.withFetchWord 32 0x10000061)) (fun t =>
      decide (t.responses.map Response.status = [.ok]) &&
      decide (t.engines.head?.map (fun g => (g.xbuf.toList, g.byteCount)) = some ([0x61, 0, 0, 0], 1))) = true := by
  decide +kernel

/-- An illegal word is answered, and changes nothing (95_test_vectors.md P4, line 6). -/
theorem test_illegal_word :
    shows (step ((one (engineOf abc) []).withFetchWord 32 0x40000001))
      (ends abc [(.illegalCommand, 0, .none)]) = true := by decide +kernel

/-- Lines of the assembler (30_encoding.md R81, R82). -/
theorem test_assembler_commands :
    let names : HostNames := { seqs := [(['S'], ⟨0, 3⟩), (['D'], ⟨8, 20⟩)], ctxs := [(['k'], abc)] }
    [assemble names 2 "update 0x61 ; a byte".toList, assemble names 2 "@1 blockupdate S, 0, -3".toList,
        assemble names 2 "dofinal D, 0".toList, assemble names 2 "@1 ctxload k".toList,
        assemble names 2 "@2 reset".toList, assemble names 2 "; comment".toList] =
      [some (.command 0 (.update 0x61)), some (.command 1 (.blockUpdate ⟨0, 3⟩ 0 (BitVec.ofInt 32 (-3)))),
        some (.command 0 (.doFinal ⟨8, 20⟩ 0)), some (.command 1 (.ctxLoad abc)), none, some .blank] := by decide

theorem test_assembler_pseudo_instructions :
    let names : HostNames := { seqs := [(['S'], ⟨0, 3⟩), (['D'], ⟨8, 20⟩)], ctxs := [] }
    [assemble names 2 "updates \"ab\"".toList, assemble names 2 "@1 hash D, 0, S, 1, 2".toList,
        assemble names 2 "clone 0, 1".toList] =
      [some (.updates 0 [0x61, 0x62]), some (.hash 1 ⟨8, 20⟩ 0 ⟨0, 3⟩ 1 2), some (.clone 0 1)] := by decide

/-! ### Witnesses: states and operands that meet the hypotheses of each statement, at boundary values -/

/-- A platform whose host has issued a command, and others after it. -/
def issued (tx : Transaction) (g : Engine) (rest : List Transaction := []) : State :=
  { one g [] with queue := tx :: rest }

/-- Two instances, the second after "abc". -/
def two : State := { one Engine.reset [] with engines := [Engine.reset, engineOf abc] }

/-- A record at block position `4 * x + o` with every held byte and word zero. -/
def atPosition (x o : Nat) (n : BitVec 64) : Context :=
  record #v[0, 0, 0, 0] (BitVec.ofNat 8 o) noWords (BitVec.ofNat 8 x) n

theorem witness_DecodeOfEncodeIsTheCommand : (Instr.doFinal ⟨7, 2 ^ 31 - 1⟩ 0xFFFFFFFF).WellFormed := by decide

theorem witness_EncodeOfDecodeIsTheTransaction : decode 0x100000FF .empty = .command (.update 0xFF) := by decide

theorem witness_WordSelectsRowByMaskAndMatch : decodeWord 0x100000FF = some ⟨.update, 0xFF⟩ := by decide

theorem witness_RecordsOfWrongShapeOrLengthAreRejected :
    (decodeWord 0x20000000 = some ⟨.blockUpdate, 0⟩ ∧ ∀ q off len, Operands.empty ≠ .range q off len) ∧
    (decodeWord 0x30000000 = some ⟨.doFinal, 0⟩ ∧ ∀ q doff, Operands.range ⟨0, 3⟩ 0 3 ≠ .output q doff) ∧
    (decodeWord 0x80000000 = some ⟨.ctxLoad, 0⟩ ∧ ∀ k, Operands.output ⟨0, 20⟩ 0 ≠ .context k) ∧
    (decodeWord 0x10000061 = some ⟨.update, 0x61⟩ ∧ Operands.context abc ≠ .empty) ∧
    2 ^ 31 - 1 < (⟨0, 2 ^ 31⟩ : Seq).len := by
  refine ⟨⟨by decide, by simp⟩, ⟨by decide, by simp⟩, ⟨by decide, by simp⟩, ⟨by decide, by simp⟩, by decide⟩

theorem witness_ThreeEventsGiveTheResetState :
    (one Engine.reset []).engine?.isSome ∧ ¬ ((0 : BitVec 32).toInt < 0 ∨ (0 : BitVec 32).toInt + 20 > (20 : Nat)) ∧
      ((1 : BitVec 32).toInt < 0 ∨ (1 : BitVec 32).toInt + 20 > (20 : Nat)) := by decide

theorem witness_StepKeepsTheInvariant :
    let s := (one (engineOf abc) []).withFetchWord 32 0x10000064
    s.Inv ∧ ∃ t, step s = .next t := by
  refine ⟨by decide, ?_⟩
  obtain ⟨t, h, -⟩ := next_of_shows (f := fun _ => true)
    (show shows (step ((one (engineOf abc) []).withFetchWord 32 0x10000064)) _ = true by decide +kernel)
  exact ⟨t, h⟩

theorem witness_AbsorbAssemblesBigEndianWords :
    (engineOf (atPosition 0 2 2)).xbufOff.toNat < 3 ∧ (engineOf abc).xbufOff.toNat = 3 := by decide

theorem witness_ProcessWordFillsAndDispatchesBlocks :
    (engineOf (atPosition 14 0 56)).xoff.toNat < 15 ∧ (engineOf ctxMax).xoff.toNat = 15 := by decide

theorem witness_UpdateAbsorbsOneByte :
    ((one (engineOf ctxMax) []).engine? = some (engineOf ctxMax) ∧ (engineOf ctxMax).byteCount.toNat = 2 ^ 61 - 1) ∧
    (engineOf { ctxMax with byteCount := 2305843009213693950 }).byteCount.toNat ≠ 2 ^ 61 - 1 := by decide

/-- A range ending at the sequence's end, one a byte longer; the counter at its limit, and one byte over. -/
theorem witness_BlockUpdateAbsorbsTheRange :
    (one (engineOf ctxMax) []).engine? = some (engineOf ctxMax) ∧ (⟨0, 3⟩ : Seq).len ≤ 2 ^ 31 - 1 ∧
    ((1 : BitVec 32).toInt < 0 ∨ (3 : BitVec 32).toInt < 0 ∨ (1 : BitVec 32).toInt + (3 : BitVec 32).toInt > (3 : Nat)) ∧
    (0 ≤ (2 : BitVec 32).toInt ∧ 0 ≤ (1 : BitVec 32).toInt ∧
      (2 : BitVec 32).toInt + (1 : BitVec 32).toInt ≤ (3 : Nat) ∧
      (engineOf ctxMax).byteCount.toNat + (1 : BitVec 32).toInt > 2 ^ 61 - 1) ∧ (engineOf ctxMax).Inv ∧
    (engineOf ctxMax).byteCount.toNat + (0 : BitVec 32).toInt ≤ 2 ^ 61 - 1 := by decide

theorem witness_BlockUpdateEqualsRepeatedUpdate :
    (one (engineOf abc) []).engine? = some (engineOf abc) ∧ 0 ≤ (1 : BitVec 32).toInt ∧ 0 ≤ (2 : BitVec 32).toInt ∧
    (1 : BitVec 32).toInt + (2 : BitVec 32).toInt ≤ (3 : Nat) ∧
    (engineOf abc).byteCount.toNat + (2 : BitVec 32).toInt ≤ 2 ^ 61 - 1 := by decide

/-- "abc" as one UPDATE and one BLOCK_UPDATE, and as one sequence. -/
theorem witness_ChunkingDoesNotMatter :
    let s := one Engine.reset [(10, 0x62), (11, 0x63), (20, 0x61), (21, 0x62), (22, 0x63)]
    let cs : List Instr := [.update 0x61, .blockUpdate ⟨10, 2⟩ 0 2]
    s.Inv ∧ cs.map (Reference.inputBytes s.mem) = [[0x61], [0x62, 0x63]].map some ∧
    (∃ t, Reference.execAll cs s = .next t ∧ ∀ r ∈ t.responses.drop s.responses.length, r.status = .ok) ∧
    0 ≤ (0 : BitVec 32).toInt ∧ 0 ≤ (3 : BitVec 32).toInt ∧ (0 : BitVec 32).toInt + (3 : BitVec 32).toInt ≤ (3 : Nat) ∧
    [[0x61], [0x62, 0x63]].flatten =
      Reference.sourceBytes s.mem ⟨20, 3⟩ (0 : BitVec 32).toNat (3 : BitVec 32).toNat := by
  refine ⟨by decide, by decide, ?_, by decide, by decide, by decide, by decide⟩
  obtain ⟨t, h, ht⟩ := next_of_shows (f := fun t => t.responses.all fun r => decide (r.status = .ok))
    (show shows (Reference.execAll [.update 0x61, .blockUpdate ⟨10, 2⟩ 0 2]
      (one Engine.reset [(10, 0x62), (11, 0x63), (20, 0x61), (21, 0x62), (22, 0x63)])) _ = true by decide +kernel)
  exact ⟨t, h, fun r hr => by simpa using (List.all_eq_true.mp ht) r (List.mem_of_mem_drop hr)⟩

theorem witness_BlocksDispatchAtPosition63 :
    ((engineOf ctxMax).xoff.toNat ≤ 15 ∧ (engineOf ctxMax).position = 63) ∧
      (engineOf (atPosition 15 2 62)).xoff.toNat ≤ 15 ∧ (engineOf (atPosition 15 2 62)).position ≠ 63 := by decide

theorem witness_FourBytesAreOneWord : Engine.reset.xbufOff = 0 ∧ Engine.reset.xbuf = Vector.replicate 4 0 := by decide

theorem witness_PlacementOfTheSourceDoesNotMatter :
    ∀ i, i < 2 → memRead [(1, 5), (2, 6), (11, 5), (12, 6)] ⟨1, 2⟩ i = memRead [(1, 5), (2, 6), (11, 5), (12, 6)] ⟨11, 2⟩ i := by
  decide

theorem witness_ExpansionFollowsTheRecurrence : (16 ≤ 16 ∧ 16 < 80) ∧ (16 ≤ 79 ∧ 79 < 80) ∧ 0 < 16 ∧ 15 < 16 := by
  decide

/-- The first and the last step of each round. -/
theorem witness_RoundScheduleAsTabulated :
    (0 ≤ 19 ∧ 19 ≤ 19) ∧ ((20 ≤ 20 ∧ 20 ≤ 39) ∧ 20 ≤ 39 ∧ 39 ≤ 39) ∧ ((40 ≤ 40 ∧ 40 ≤ 59) ∧ 40 ≤ 59 ∧ 59 ≤ 59) ∧
      (60 ≤ 60 ∧ 60 ≤ 79) ∧ 60 ≤ 79 ∧ 79 ≤ 79 := by decide

theorem witness_MixingAndRotationIdentities :
    (0 < 1 ∧ 1 < 32 ∧ 0 < 30 ∧ 30 < 32 ∧ (1 + 30) % 32 ≠ 0) ∧ 0 < 31 ∧ 31 < 32 ∧ 0 < 2 ∧ 2 < 32 ∧ (31 + 2) % 32 ≠ 0 := by
  decide

theorem witness_FinishAbsorbsThePadding : Engine.reset.Inv ∧ (engineOf ctxMax).Inv := by decide

/-- What an engine holds: a word and two bytes, in input order. -/
theorem test_heldBytes :
    Reference.heldBytes (engineOf (record #v[0x65, 0x66, 0, 0] 2 (noWords.set 0 0x61626364) 1 6)) =
      [0x61, 0x62, 0x63, 0x64, 0x65, 0x66] := by decide

theorem witness_PaddingLengthAndBlockCount :
    ((engineOf (atPosition 13 3 55)).Inv ∧ (engineOf (atPosition 13 3 55)).byteCount.toNat % 64 ≤ 55) ∧
    (engineOf (atPosition 14 0 56)).Inv ∧ 56 ≤ (engineOf (atPosition 14 0 56)).byteCount.toNat % 64 := by decide

theorem witness_WordLevelFinishAgrees : (engineOf abc).Inv ∧ (engineOf ctxMax).Inv := by decide

/-- Each phase, with the zero bytes counted from the last position at which the block still has room, and from
the first at which it has not. -/
theorem witness_PaddingFsmFollowsItsTable :
    ([Phase.idle, .finSentinel, .finZero, .finLength, .finOutput, .finReset].all fun p =>
      (fsmStep ⟨0, 20⟩ 0 ⟨(engineOf abc).inPhase p, []⟩).isSome) = true ∧ 0 + 20 ≤ (⟨0, 20⟩ : Seq).len ∧
    (engineOf abc).xoff.toNat ≤ 15 ∧
    ([atPosition 14 0 56, atPosition 14 1 57].map fun k =>
      (fsmStep ⟨0, 20⟩ 0 ⟨(engineOf k).inPhase .finZero, []⟩).map fun r => (r.eng.xoff, r.eng.xbufOff)) =
      [some (14, 0), some (14, 0)] := by
  decide +kernel

theorem witness_DoFinalWritesTheDigestAndResets :
    (one (engineOf abc) []).engine? = some (engineOf abc) ∧ (one (engineOf abc) []).mem.wf = true ∧
    ((5 : BitVec 32).toInt < 0 ∨ (5 : BitVec 32).toInt + 20 > (24 : Nat)) ∧
    (0 ≤ (4 : BitVec 32).toInt ∧ (4 : BitVec 32).toInt + 20 ≤ (24 : Nat)) ∧
    (103 < 100 + (4 : BitVec 32).toNat ∧ 100 + (4 : BitVec 32).toNat + 20 ≤ 124) := by decide

theorem witness_EngineComputesTheDigestOfTheMessage :
    ownState (one Engine.reset (filled 0 3 0x61)) = some (resetContext, .idle) ∧
    (one Engine.reset (filled 0 3 0x61)).mem.wf = true ∧
    0 ≤ (0 : BitVec 32).toInt ∧ 0 ≤ (3 : BitVec 32).toInt ∧ (0 : BitVec 32).toInt + (3 : BitVec 32).toInt ≤ (3 : Nat) ∧
    (0 : BitVec 32).toInt + 20 ≤ (20 : Nat) := by decide

/-- The state of RESET, DIGEST_SIZE, ALGORITHM_NAME and CTX_SAVE statements: an existing instance. -/
theorem witness_existing_instance :
    (one (engineOf ctxMax) []).engine?.isSome ∧ (one (engineOf ctxMax) []).engine? = some (engineOf ctxMax) ∧
      (engineOf ctxMax).Inv := by decide

theorem witness_CtxLoadImportsLegalRecordsOnly :
    (one Engine.reset []).engine?.isSome ∧ LegalContext ctxMax ∧ LegalContext abc ∧
      ¬ LegalContext { abc with xbufOff := 4 } ∧ ¬ LegalContext { abc with xoff := 16, byteCount := 67 } := by
  unfold LegalContext
  decide

/-- What the assembler lines suppose of the queue: nothing issued, or a clean command before an overlapping one
to the instance. -/
theorem witness_ClearFor :
    ClearFor two 0 ∧ ClearFor two 1 ∧
    ClearFor { two with queue := [⟨1, 0x40000000, .empty, .clean⟩, ⟨1, 0x40000000, .empty, .overlapping⟩] } 1 := by
  refine ⟨fun tx h => ?_, fun tx h => ?_, fun tx h => ?_⟩ <;> cases h
  decide

theorem witness_CloneCopiesOneInstanceToAnother : two.Inv ∧ 1 < two.engines.length ∧ 0 < two.engines.length := by
  decide

/-- A source range one byte too long; with a good one, a destination one byte too far, and one that fits. -/
theorem witness_HashLineStopsAtARaisedStatus :
    two.Inv ∧ 1 < two.engines.length ∧ (⟨0, 3⟩ : Seq).WellFormed ∧ (⟨8, 20⟩ : Seq).WellFormed ∧
    ((1 : BitVec 32).toInt < 0 ∨ (3 : BitVec 32).toInt < 0 ∨ (1 : BitVec 32).toInt + (3 : BitVec 32).toInt > (3 : Nat)) ∧
    (0 ≤ (0 : BitVec 32).toInt ∧ 0 ≤ (3 : BitVec 32).toInt ∧ (0 : BitVec 32).toInt + (3 : BitVec 32).toInt ≤ (3 : Nat)) ∧
    ((1 : BitVec 32).toInt < 0 ∨ (1 : BitVec 32).toInt + 20 > (20 : Nat)) ∧
    (0 ≤ (0 : BitVec 32).toInt ∧ (0 : BitVec 32).toInt + 20 ≤ (20 : Nat)) := by decide

/-- Every command answers a next state from one state: what the frame statements suppose. -/
theorem witness_frames :
    ([.update 0x61, .blockUpdate ⟨0, 3⟩ 0 3, .doFinal ⟨0, 20⟩ 0, .reset, .digestSize, .algorithmName, .ctxSave,
        .ctxLoad abc].all fun i => shows (exec i (one (engineOf abc) [])) fun _ => true) = true ∧
    ((1 : BitVec 32).toInt < 0 ∨ (1 : BitVec 32).toInt + 20 > (20 : Nat)) := by decide +kernel

theorem witness_HostMemoryReadsBackWhatWasWritten :
    Memory.wf [(5, 0x61)] = true ∧ memWrite [(5, 0x61)] ⟨5, 2⟩ 1 0x62 = some [(5, 0x61), (6, 0x62)] ∧ 7 ≠ 5 + 1 := by
  decide

/-- Two states that differ in a transient element, in another instance and in earlier responses. -/
theorem witness_EffectDependsOnOwnArchitecturalStateOnly :
    let s := one (engineOf abc) []
    let s' := { two with target := 1, engines := [Engine.reset, { engineOf abc with a := 5 }], responses := [⟨0, .ok, 0, .none⟩] }
    (ownState s).isSome ∧ ownState s = ownState s' ∧ s.mem = s'.mem := by decide

theorem witness_ErrorResponsesChangeNothing :
    ∃ t r, step (issued ⟨0, 0x40000001, .empty, .clean⟩ Engine.reset) = .next t ∧ t.responses = [] ++ [r] ∧ r.status ≠ .ok := by
  obtain ⟨t, h, ht⟩ := next_of_shows (f := fun t => decide (t.responses = [⟨0, .illegalCommand, 0, .none⟩]))
    (show shows (step (issued ⟨0, 0x40000001, .empty, .clean⟩ Engine.reset)) _ = true by decide +kernel)
  exact ⟨t, _, h, by simpa using ht, by decide⟩

theorem witness_EveryWellFormedCommandResponds :
    let tx : Transaction := ⟨0, 0x20000000, .range ⟨0, 3⟩ 0 3, .clean⟩
    (issued tx Engine.reset).queue = [tx] ∧ tx.inst < (issued tx Engine.reset).engines.length ∧
      ¬ overlaps tx [] ∧ tx.conduct = .clean ∧ ∀ why, decode tx.cmd tx.operands ≠ .rejected why := by
  refine ⟨rfl, by decide, by decide, rfl, fun why => ?_⟩
  cases why <;> decide

theorem witness_StepRunsTheDecodedCommand :
    let tx : Transaction := ⟨0, 0x10000061, .empty, .clean⟩
    ((issued tx Engine.reset).queue = [tx] ∧ tx.inst < (issued tx Engine.reset).engines.length ∧
      ¬ overlaps tx [] ∧ tx.conduct = .clean ∧ decode tx.cmd tx.operands = .command (.update 0x61)) ∧ (one Engine.reset []).queue = [] := by decide

/-- A reserved opcode at either end of its range, a set `RSV` bit, an `IMM8` outside UPDATE; a legal word. -/
theorem witness_IllegalWordsRaiseIllegalCommand :
    let tx : Transaction := ⟨0, 0x90000000, .empty, .bufferTouched⟩
    (issued tx Engine.reset).queue = [tx] ∧ tx.inst < (issued tx Engine.reset).engines.length ∧
      ¬ overlaps tx [] ∧ ReservedWord tx.cmd ∧ ReservedWord 0x00000000 ∧ ReservedWord 0xF0000000 ∧
      ReservedWord 0x10000100 ∧ ReservedWord 0x40000001 ∧ ¬ ReservedWord 0x100000FF ∧
      shows (step (issued ⟨0, 0x100000FF, .empty, .clean⟩ Engine.reset))
        (fun t => decide (t.responses = [⟨0, .ok, 0, .none⟩])) = true := by
  unfold ReservedWord
  decide +kernel

/-- Each status is returned by some command. -/
theorem witness_EachStatusHasItsCodeAndItsCommands :
    shows (exec (.doFinal ⟨0, 20⟩ 1) (one (engineOf abc) [])) (ends abc [(.outOfRange, 0, .none)]) = true ∧
    shows (exec (.update 0) (one (engineOf ctxMax) [])) (ends ctxMax [(.lengthOverflow, 0, .none)]) = true ∧
    shows (exec (.ctxLoad { abc with xbufOff := 4 }) (one (engineOf abc) []))
      (ends abc [(.invalidContext, 0, .none)]) = true ∧
    shows (exec .reset (one (engineOf abc) [])) (ends resetContext [(.ok, 0, .none)]) = true := by decide +kernel

/-- Both of two overlapping commands to an instance are refused, the earlier one already; a command to another
instance overlaps neither (70_reset_and_hazards.md R234). -/
theorem test_overlapping_commands :
    let first : Transaction := ⟨0, 0x10000061, .empty, .clean⟩
    let between : Transaction := ⟨1, 0x10000062, .empty, .clean⟩
    let second : Transaction := ⟨0, 0x10000063, .empty, .overlapping⟩
    refuses (step { two with queue := [first, between, second] }) .overlappingCommands = true ∧
      refuses (step { two with queue := [second] }) .overlappingCommands = true ∧
      shows (step { two with queue := [between, first, second] })
        (fun t => decide (t.responses = [⟨1, .ok, 0, .none⟩])) = true := by decide +kernel

/-- A command that overlaps the one before it; a clean one that the next to its instance overlaps, past one to
another instance; and one that does neither. -/
theorem witness_OverlappingCommandsAreRefused :
    let first : Transaction := ⟨0, 0x10000061, .empty, .clean⟩
    let between : Transaction := ⟨1, 0x10000062, .empty, .overlapping⟩
    let second : Transaction := ⟨0, 0x10000063, .empty, .overlapping⟩
    first.inst < (issued first Engine.reset [between, second]).engines.length ∧
      (issued second Engine.reset).queue = [second] ∧ second.conduct = .overlapping ∧
      (issued first Engine.reset [between, second]).queue = first :: ([between] ++ second :: []) ∧
      (∀ b ∈ [between], b.inst ≠ first.inst) ∧ second.inst = first.inst ∧ first.conduct ≠ .overlapping ∧
      ¬ overlaps first [between] := by decide

theorem witness_TouchedBuffersAreRefused :
    let tx : Transaction := ⟨0, 0x30000000, .output ⟨0, 20⟩ 0, .bufferTouched⟩
    let tx' : Transaction := ⟨0, 0x20000000, .range ⟨0, 3⟩ 0 3, .bufferTouched⟩
    tx.inst < (issued tx Engine.reset).engines.length ∧ ¬ overlaps tx [] ∧ ¬ overlaps tx' [] ∧
      decode tx.cmd tx.operands = .command (.doFinal ⟨0, 20⟩ 0) ∧
      decode tx'.cmd tx'.operands = .command (.blockUpdate ⟨0, 3⟩ 0 3) := by decide

theorem witness_MalformedTransactionsAreRefused :
    (issued ⟨1, 0x10000061, .empty, .clean⟩ Engine.reset).engines.length ≤ 1 ∧
    ¬ overlaps ⟨0, 0x10000061, .range ⟨0, 3⟩ 0 3, .clean⟩ [] ∧
    ¬ overlaps ⟨0, 0x20000000, .range ⟨0, 2 ^ 31⟩ 0 3, .bufferTouched⟩ [] ∧
    decode 0x10000061 (.range ⟨0, 3⟩ 0 3) = .rejected .operandShape ∧
    decode 0x20000000 (.range ⟨0, 2 ^ 31⟩ 0 3) = .rejected .sequenceTooLong := by decide

end Sys2Proof.Tests
end

section
/-! ## No fault, one response, and host memory -/

namespace Sys2Proof.Machine

/-- No command faults, whatever the state: each checks its bounds before it reads or writes a sequence. -/
theorem exec_ne_fault (i : Instr) (s : State) (f : Fault) : exec i s ≠ .fault f := by
  cases hg : s.engine? with
  | none => simp [exec_noEngine hg]
  | some g =>
    obtain ⟨t, ht, -⟩ := exec_ending hg i
    simp [ht]

/-- Only a command that runs could fault. -/
theorem carryOut_ne_fault (s : State) (x : Fetched) (f : Fault) : carryOut s x ≠ .fault f := by
  cases x with
  | idle => simp [carryOut]
  | refuse r => simp [carryOut]
  | illegal s' => simp [carryOut]
  | run i s' => exact exec_ne_fault i s' f

/-- Settles O11: whatever the fetch makes of the queue, carrying it out does not fault. -/
theorem noStepAccessesOutsideASequence : Obligations.NoStepAccessesOutsideASequence :=
  fun s f => carryOut_ne_fault s (fetch s) f

@[simp] theorem memRead_isSome {m : Memory} {q : Seq} {i : Nat} : (memRead m q i).isSome ↔ i < q.len := by
  simp [memRead]

@[simp] theorem memWrite_isSome {m : Memory} {q : Seq} {i : Nat} {v : Byte} :
    (memWrite m q i v).isSome ↔ i < q.len := by
  simp [memWrite]

/-- Settles O43: `memWrite` within the sequence is `Memory.write` at the byte's address. -/
theorem hostMemoryReadsBackWhatWasWritten : Obligations.HostMemoryReadsBackWhatWasWritten := by
  intro m q i v hm
  refine ⟨memRead_isSome, memWrite_isSome, fun m' hw => ?_⟩
  obtain ⟨hi, rfl⟩ := memWrite_eq_some.mp hw
  exact ⟨Memory.write_wf hm _ v, memRead_eq_some.mpr ⟨hi, Memory.read_write_same hm _ v⟩,
    fun a ha => Memory.read_write_ne m ha v⟩

/-- There are five status codes, `0x00` to `0x04` (30_encoding.md R79). -/
theorem Status.code_toNat_le (st : Status) : st.code.toNat ≤ 4 := by
  cases st <;> decide

/-- An illegal word to an engine that exists is answered `ILLEGAL_COMMAND`, whatever the operands. -/
theorem step_illegal {s : State} {tx : Transaction} {rest : List Transaction} (hq : s.queue = tx :: rest)
    (h1 : tx.inst < s.engines.length) (h2 : ¬ overlaps tx rest) (hd : decode tx.cmd tx.operands = .illegal) :
    step s = .next ((s.accept tx rest).raise .illegalCommand) := by
  rw [step_cons hq, fetchHead_illegal h1 h2 hd, carryOut]

/-- A decoded command whose buffer no other agent touched runs in the state that has accepted it. -/
theorem step_command {s : State} {tx : Transaction} {rest : List Transaction} {i : Instr}
    (hq : s.queue = tx :: rest) (h1 : tx.inst < s.engines.length) (h2 : ¬ overlaps tx rest)
    (hd : decode tx.cmd tx.operands = .command i) (hc : tx.conduct ≠ .bufferTouched) :
    step s = exec i (s.accept tx rest) := by
  rw [step_cons hq, fetchHead_command h1 h2 hd, if_neg fun h => hc h.1, carryOut]

/-- A step on the transaction of a well-behaved host ends as some command on the addressed engine does. -/
theorem step_ending {s : State} {tx : Transaction} {rest : List Transaction} (hq : s.queue = tx :: rest)
    (h1 : tx.inst < s.engines.length) (h2 : ¬ overlaps tx rest) (hc : tx.conduct ≠ .bufferTouched)
    (hd : ∀ why, decode tx.cmd tx.operands ≠ .rejected why) :
    ∃ t, step s = .next t ∧ Ending (s.accept tx rest) t := by
  cases h : decode tx.cmd tx.operands with
  | illegal => exact ⟨_, step_illegal hq h1 h2 h, .raised _ (by decide)⟩
  | rejected why => exact absurd h (hd why)
  | command i =>
    obtain ⟨g, hg, -⟩ := State.accept_engine? (rest := rest) h1
    rw [step_command hq h1 h2 h hc]
    exact exec_ending hg i

/-- Settles O46: the transaction is accepted, and each ending keeps the queue and appends one response. -/
theorem everyWellFormedCommandResponds : Obligations.EveryWellFormedCommandResponds := by
  intro s tx rest hq h1 h2 hc hd
  obtain ⟨t, ht, he⟩ := step_ending hq h1 h2 (by simp [hc]) hd
  obtain ⟨hqueue, -, -, -, r, hr, hinst⟩ := he.frame
  exact ⟨t, r, ht, hqueue, hr, hinst, r.status.code_toNat_le⟩

end Sys2Proof.Machine
end

section
/-! ## PROCESS_BLOCK is the compression over a 16-word window (42_compression.md R148, R149) -/

namespace Sys2Proof.Machine

open Reference

/-- EXPAND leaves `W[0..15]` alone. -/
theorem Engine.expand_getW_of_lt (g : Engine) {i : Nat} (hi : i < 16) : g.expand.getW i = g.getW i := by
  rw [Engine.expand_eq_expandTo, Engine.expandTo_getW g (n := 0) hi (by omega)]
  rfl

/-- The recurrence of EXPAND (42_compression.md R141): word `16 + n` is written once, from words that are
final by then. -/
theorem Engine.expand_getW_recurrence (g : Engine) {n : Nat} (hn : n < 64) :
    g.expand.getW (16 + n) =
      rotl 1 (g.expand.getW (16 + n - 3) ^^^ g.expand.getW (16 + n - 8) ^^^ g.expand.getW (16 + n - 14) ^^^
        g.expand.getW (16 + n - 16)) := by
  have final : ∀ j, j < 16 + n → g.expand.getW j = (g.expandTo n).getW j := fun j hj => by
    rw [Engine.expand_eq_expandTo, Engine.expandTo_getW g hj (by omega)]
  rw [final (16 + n - 3) (by omega), final (16 + n - 8) (by omega), final (16 + n - 14) (by omega),
    final (16 + n - 16) (by omega), Engine.expand_eq_expandTo,
    Engine.expandTo_getW g (n := n + 1) (by omega) (by omega), Engine.expandTo_succ,
    Engine.expandWord, Engine.getW_setW_same _ (by omega)]

/-- Before step `t` the window holds the 16 latest words of the schedule, and until step 16 the block. -/
def Reference.WindowHolds (e : Engine) (t : Nat) (win : Vector Word 16) : Prop :=
  ∀ j, j < max t 16 → max t 16 ≤ j + 16 → win[j % 16]?.getD 0 = e.getW j

/-- The window starts as the block's words. -/
theorem windowHolds_zero (g : Engine) : WindowHolds g.expand 0 g.w := by
  intro j hj _
  rw [Engine.expand_getW_of_lt g (by omega), Engine.getW, if_pos (by omega), Nat.mod_eq_of_lt (by omega)]

/-- The schedule word computed from the window is the word EXPAND computes. -/
theorem scheduleWord_of_windowHolds {g : Engine} {t : Nat} {win : Vector Word 16}
    (h : WindowHolds g.expand t win) (ht : t < 80) : scheduleWord win t = g.expand.getW t := by
  unfold scheduleWord
  split
  · next hlt =>
    have := h t (by omega) (by omega)
    rwa [Nat.mod_eq_of_lt hlt] at this
  · next hge =>
    obtain ⟨n, rfl⟩ : ∃ n, t = 16 + n := ⟨t - 16, by omega⟩
    have oldest := h n (by omega) (by omega)
    rw [show n % 16 = (16 + n) % 16 by omega] at oldest
    rw [Engine.expand_getW_recurrence g (by omega), h (16 + n - 3) (by omega) (by omega),
      h (16 + n - 8) (by omega) (by omega), h (16 + n - 14) (by omega) (by omega), oldest,
      show 16 + n - 16 = n by omega]

/-- Storing the schedule word of step `t` in its place keeps the window. -/
theorem windowHolds_succ {e : Engine} {t : Nat} {win : Vector Word 16} (h : WindowHolds e t win) :
    WindowHolds e (t + 1) (win.setIfInBounds (t % 16) (e.getW t)) := by
  intro j hj hj'
  by_cases hjt : j = t
  · subst hjt
    simp [Nat.mod_lt]
  · have hne : t % 16 ≠ j % 16 := by omega
    rw [Vector.getElem?_setIfInBounds_ne hne]
    exact h j (by omega) (by omega)

/-- One step over the window computes what the step over the expanded schedule does. -/
theorem windowStep_eq {g e : Engine} {t : Nat} {s : Window} (ht : t < 80) (hwin : WindowHolds g.expand t s.win)
    (he : e.getW t = g.expand.getW t) (hreg : s.reg = e.working) :
    WindowHolds g.expand (t + 1) (windowStep s t).win ∧ (windowStep s t).reg = (e.stepAt t).working := by
  have hword := scheduleWord_of_windowHolds hwin ht
  constructor
  · rw [windowStep, hword]
    exact windowHolds_succ hwin
  · rw [Engine.stepAt_working e (by omega), he, ← hreg, windowStep, hword]

/-- The steps over the window compute what the steps over the expanded schedule do. -/
theorem windowSteps_eq (g : Engine) {n : Nat} (hn : n ≤ 80) :
    WindowHolds g.expand n ((List.range n).foldl windowStep ⟨g.w, g.h⟩).win ∧
      ((List.range n).foldl windowStep ⟨g.w, g.h⟩).reg = (g.expand.initWorking.roundsTo n).working := by
  induction n with
  | zero =>
    refine ⟨windowHolds_zero g, ?_⟩
    rw [Engine.roundsTo, List.range_zero, List.foldl_nil, List.foldl_nil, Engine.initWorking_working,
      g.expand_frame.h]
  | succ n ih =>
    obtain ⟨hwin, hreg⟩ := ih (by omega)
    rw [List.range_succ, List.foldl_append, Engine.roundsTo_succ]
    exact windowStep_eq (by omega) hwin (by rw [Engine.roundsTo_getW, Engine.initWorking_getW]) hreg

/-- PROCESS_BLOCK computes the reference compression of `H[0..4]` and `W[0..15]`. -/
theorem Engine.processBlock_h_eq_compress (g : Engine) : g.processBlock.h = compress g.h g.w := by
  have hsteps := (windowSteps_eq g (n := 80) le_rfl).2
  rw [Engine.processBlock, Engine.feedForward_zip, g.beforeFeedForward_frame.h, Engine.rounds_eq_roundsTo,
    ← hsteps, compress]

end Sys2Proof.Machine
end

section
/-! ## Absorbing whole words and whole blocks (40_digest_buffer.md R100, R101) -/

namespace Sys2Proof.Machine

open Reference

/-- An engine with other words in its block. -/
def Engine.withBlock (g : Engine) (w : Vector Word 16) (n : BitVec 5) : Engine := { g with w := w, xoff := n }

/-- An engine with another hash state. -/
def Engine.withHash (g : Engine) (h : Vector Word 5) : Engine := { g with h := h }

/-- An engine with another assembly buffer. -/
def Engine.withBuffer (g : Engine) (buf : Vector Byte 4) (off : BitVec 2) : Engine :=
  { g with xbuf := buf, xbufOff := off }

/-- No byte of a block is held: block and assembly buffer are empty, their entries zero. -/
structure Engine.BlockEmpty (g : Engine) : Prop where
  xbuf : g.xbuf = Vector.replicate 4 0
  xbufOff : g.xbufOff = 0
  w : g.w = Vector.replicate 16 0
  xoff : g.xoff = 0

/-- ABSORB with fewer than three bytes held, as an effect on the assembly buffer. -/
theorem Engine.absorb_withBuffer (g : Engine) (buf : Vector Byte 4) {off : BitVec 2} (h : off.toNat < 3)
    (b : Byte) :
    (g.withBuffer buf off).absorb b = g.withBuffer (buf.setIfInBounds off.toNat b) (off + 1) :=
  Engine.absorb_store (g := g.withBuffer buf off) h b

/-- With an empty assembly buffer, absorbing four bytes is storing their big-endian word
(40_digest_buffer.md R104). -/
theorem absorbAll_four {g : Engine} (hoff : g.xbufOff = 0) (hbuf : g.xbuf = Vector.replicate 4 0)
    (b0 b1 b2 b3 : Byte) :
    (absorbAll g [b0, b1, b2, b3]).context = (g.processWord (beWord b0 b1 b2 b3)).context := by
  have hempty : g = g.withBuffer (Vector.replicate 4 0) 0 := by rw [← hoff, ← hbuf]; rfl
  have hthree : absorbAll g [b0, b1, b2] = g.withBuffer #v[b0, b1, b2, 0] 3 := by
    conv_lhs => rw [hempty]
    simp only [absorbAll_cons, absorbAll_nil]
    rw [Engine.absorb_withBuffer _ _ (by decide), Engine.absorb_withBuffer _ _ (by decide),
      Engine.absorb_withBuffer _ _ (by decide)]
    rfl
  obtain ⟨hh, hw, hx⟩ := Engine.processWord_block_congr
    (g := (g.withBuffer #v[b0, b1, b2, 0] 3).storeByte b3) (g' := g) rfl rfl rfl (beWord b0 b1 b2 b3)
  rw [show [b0, b1, b2, b3] = [b0, b1, b2] ++ [b3] from rfl, absorbAll_append, hthree, absorbAll_cons,
    absorbAll_nil, Engine.absorb_full rfl, Engine.context_eq_iff]
  refine ⟨hh, ?_, ?_, hw, hx, ?_⟩
  · rw [Engine.clearBuffer_xbuf, Engine.processWord_xbuf, hbuf]
  · rw [Engine.clearBuffer_xbufOff, Engine.processWord_xbufOff, hoff]
  · rw [Engine.clearBuffer_byteCount, Engine.processWord_byteCount, Engine.processWord_byteCount]; rfl

/-- Four bytes of a byte string from index `i` on. -/
theorem take_four_drop {bs : List Byte} {i : Nat} (h : i + 4 ≤ bs.length) :
    (bs.drop i).take 4 = [bs.getD i 0, bs.getD (i + 1) 0, bs.getD (i + 2) 0, bs.getD (i + 3) 0] := by
  rw [List.drop_eq_getElem_cons (show i < bs.length by omega),
    List.drop_eq_getElem_cons (show i + 1 < bs.length by omega),
    List.drop_eq_getElem_cons (show i + 1 + 1 < bs.length by omega),
    List.drop_eq_getElem_cons (show i + 1 + 1 + 1 < bs.length by omega)]
  simp only [List.take_succ_cons, List.take_zero, List.getD_eq_getElem _ _ (show i < bs.length by omega),
    List.getD_eq_getElem _ _ (show i + 1 < bs.length by omega),
    List.getD_eq_getElem _ _ (show i + 2 < bs.length by omega),
    List.getD_eq_getElem _ _ (show i + 3 < bs.length by omega)]

/-- With an empty assembly buffer, whatever the block, four bytes of a byte string store the word they make. -/
theorem absorbAll_wordAt {g : Engine} (hg : g.BlockEmpty) (w : Vector Word 16) (n : BitVec 5) {bs : List Byte}
    {i : Nat} (h : i + 4 ≤ bs.length) :
    (absorbAll (g.withBlock w n) ((bs.drop i).take 4)).context =
      ((g.withBlock w n).processWord (wordAt bs i)).context := by
  rw [take_four_drop h]
  exact absorbAll_four (g := g.withBlock w n) hg.xbufOff hg.xbuf _ _ _ _

/-- A block of which the first `k` words are those of a byte string from index `i` on, the others zero. -/
def Reference.wordsFrom (bs : List Byte) (i k : Nat) : Vector Word 16 :=
  Vector.ofFn fun j : Fin 16 => if j.val < k then wordAt bs (i + 4 * j.val) else 0

theorem wordsFrom_zero (bs : List Byte) (i : Nat) : wordsFrom bs i 0 = Vector.replicate 16 0 := by
  ext j hj
  simp [wordsFrom]

theorem wordsFrom_succ (bs : List Byte) (i k : Nat) :
    (wordsFrom bs i k).setIfInBounds k (wordAt bs (i + 4 * k)) = wordsFrom bs i (k + 1) := by
  apply Vector.ext
  intro j hj
  by_cases h : j = k
  · subst h
    simp [wordsFrom]
  · rw [Vector.getElem_setIfInBounds_ne _ (Ne.symm h)]
    simp [wordsFrom, show j ≤ k ↔ j < k by omega]

/-- All 16 words make the block of the byte string that starts there. -/
theorem wordsFrom_sixteen (bs : List Byte) (n : Nat) : wordsFrom bs (64 * n) 16 = blockAt bs n := by
  ext j hj
  simp [wordsFrom, blockAt]

/-- PROCESS_WORD before the 16th word, as an effect on the block. -/
theorem Engine.processWord_withBlock (g : Engine) (w : Vector Word 16) {n : BitVec 5} (h : n.toNat < 15)
    (v : Word) : (g.withBlock w n).processWord v = g.withBlock (w.setIfInBounds n.toNat v) (n + 1) :=
  Engine.processWord_store (g := g.withBlock w n) h v

/-- The bytes of the first `k` words, `k` below 16, fill an empty block with those words. -/
theorem absorbAll_words {g : Engine} (hg : g.BlockEmpty) {bs : List Byte} {i k : Nat} (hk : k ≤ 15)
    (hlen : i + 4 * k ≤ bs.length) :
    (absorbAll g ((bs.drop i).take (4 * k))).context =
      (g.withBlock (wordsFrom bs i k) (BitVec.ofNat 5 k)).context := by
  induction k with
  | zero =>
    rw [wordsFrom_zero, ← hg.w, show BitVec.ofNat 5 0 = g.xoff from hg.xoff.symm]
    rfl
  | succ k ih =>
    have hoff : (BitVec.ofNat 5 k).toNat = k := by simp only [BitVec.toNat_ofNat]; omega
    rw [Nat.mul_succ, List.take_add, List.drop_drop, absorbAll_append,
      absorbAll_congr (ih (by omega) (by omega)),
      absorbAll_wordAt hg _ _ (by omega),
      Engine.processWord_withBlock _ _ (by omega), hoff, wordsFrom_succ, BitVec.ofNat_add]
    rfl

/-- PROCESS_WORD of the 16th word, as an effect on the hash state and the block. -/
theorem Engine.processWord_withBlock_last (g : Engine) (w : Vector Word 16) {n : BitVec 5} (h : n.toNat = 15)
    (v : Word) :
    ((g.withBlock w n).processWord v).context =
      ((g.withHash (compress g.h (w.setIfInBounds 15 v))).withBlock (Vector.replicate 16 0) 0).context := by
  rw [Engine.processWord_dispatch (g := g.withBlock w n) h, Engine.context_eq_iff]
  refine ⟨?_, ?_, ?_, ?_, ?_, ?_⟩
  · rw [Engine.dispatchBlock_h, Engine.processBlock_h_eq_compress]; rfl
  · rw [Engine.dispatchBlock_xbuf, Engine.processBlock_xbuf]; rfl
  · rw [Engine.dispatchBlock_xbufOff, Engine.processBlock_xbufOff]; rfl
  · rw [Engine.dispatchBlock_w]; rfl
  · rw [Engine.dispatchBlock_xoff]; rfl
  · rw [Engine.dispatchBlock_byteCount, Engine.processBlock_byteCount]; rfl

/-- The 64 bytes of a block compress it into the hash state and leave the block empty again. -/
theorem absorbAll_block {g : Engine} (hg : g.BlockEmpty) {bs : List Byte} {n : Nat}
    (hlen : 64 * n + 64 ≤ bs.length) :
    (absorbAll g ((bs.drop (64 * n)).take 64)).context = (g.withHash (compress g.h (blockAt bs n))).context := by
  rw [show (bs.drop (64 * n)).take 64 = _ from List.take_add (i := 4 * 15) (j := 4), List.drop_drop,
    absorbAll_append, absorbAll_congr (absorbAll_words hg le_rfl (by omega)),
    absorbAll_wordAt hg _ _ (by omega),
    Engine.processWord_withBlock_last _ _ (by rfl), wordsFrom_succ, wordsFrom_sixteen, ← hg.w, ← hg.xoff]
  rfl

/-- One more block of the reference hash. -/
theorem hashBlocks_succ (h : Vector Word 5) (bs : List Byte) (n : Nat) :
    hashBlocks h bs (n + 1) = compress (hashBlocks h bs n) (blockAt bs n) := by
  simp [hashBlocks, List.range_succ]

/-- Absorbing `n` whole blocks from an empty block hashes them as the reference does. -/
theorem absorbAll_blocks {g : Engine} (hg : g.BlockEmpty) {bs : List Byte} {n : Nat} (hlen : 64 * n ≤ bs.length) :
    (absorbAll g (bs.take (64 * n))).context = (g.withHash (hashBlocks g.h bs n)).context := by
  induction n with
  | zero => rfl
  | succ n ih =>
    have hg' : (g.withHash (hashBlocks g.h bs n)).BlockEmpty := ⟨hg.xbuf, hg.xbufOff, hg.w, hg.xoff⟩
    rw [show 64 * (n + 1) = 64 * n + 64 by omega, List.take_add, absorbAll_append,
      absorbAll_congr (ih (by omega)), absorbAll_block hg' (by omega), hashBlocks_succ]
    rfl

end Sys2Proof.Machine
end

section
/-! ## FINISH, OUTPUT and the digest of a message (41_padding_fsm.md R121, R125, R128) -/

namespace Sys2Proof.Machine

open Reference Claims

/-- FINISH latches the length and absorbs exactly the padding of a message of `BYTECOUNT` bytes. -/
theorem Engine.finish_eq {g : Engine} (hx : g.xoff.toNat ≤ 15) (hp : g.position = g.byteCount.toNat % 64) :
    g.finish = absorbAll g.latchLength (padding g.byteCount.toNat) := by
  have hbits : BitVec.ofNat 64 (8 * g.byteCount.toNat) = g.byteCount * 8 :=
    BitVec.eq_of_toNat_eq (by simp [Nat.mul_comm])
  obtain ⟨hpos, hx'⟩ : g.finSentinel.position = (g.position + 1) % 64 ∧ g.finSentinel.xoff.toNat ≤ 15 :=
    Engine.absorb_position (g := g.latchLength) hx 0x80
  have hzeros : g.finSentinel.finZero =
      absorbAll g.finSentinel (List.replicate (zeroCount g.byteCount.toNat) 0) := by
    refine Engine.absorbZeros_exact hx' ?_ ?_ <;> rw [zeroCount] <;> split <;> omega
  rw [Engine.finish, Engine.finLength_eq, Engine.finZero_bl, Engine.finSentinel_bl, hzeros, padding, hbits,
    absorbAll_cons, absorbAll_append, Engine.finSentinel]

/-- A padded message is a whole number of blocks (41_padding_fsm.md R123). -/
theorem padded_length_dvd (msg : List Byte) : 64 ∣ (msg ++ padding msg.length).length := by
  simp only [padding, zeroCount, List.length_append, List.length_cons, List.length_replicate, List.length_map,
    List.length_range]
  split <;> omega

/-- FINISH leaves in `H` the hash of the padded message, when the engine has absorbed the message from an
empty block and counted its bytes. -/
theorem Engine.finish_h_of_message {g g1 : Engine} (hg : g.BlockEmpty) {msg : List Byte}
    (hmsg : msg.length < 2 ^ 64)
    (hg1 : g1.context = ((absorbAll g msg).withCount (BitVec.ofNat 64 msg.length)).context) :
    g1.finish.h =
      hashBlocks g.h (msg ++ padding msg.length) ((msg ++ padding msg.length).length / 64) := by
  obtain ⟨-, -, hoff, -, hxoff, hcount⟩ := Engine.context_eq_iff.mp hg1
  have hlen : g1.byteCount.toNat = msg.length := by
    rw [hcount]
    exact Nat.mod_eq_of_lt hmsg
  obtain ⟨hpos, hx⟩ := absorbAll_position (g := g) (by simp [hg.xoff]) msg
  have hp : g1.position = g1.byteCount.toNat % 64 := by
    have hstart : g.position = 0 := by simp [Engine.position, hg.xoff, hg.xbufOff]
    rw [hstart, Nat.zero_add] at hpos
    rw [hlen, ← hpos, Engine.position, hoff, hxoff]
    rfl
  have hpadded : (absorbAll g1.latchLength (padding msg.length)).context =
      ((absorbAll g (msg ++ padding msg.length)).withCount (BitVec.ofNat 64 msg.length)).context := by
    rw [absorbAll_congr (g1.latchLength_context.trans hg1), absorbAll_withCount, absorbAll_append]
  have hblocks := absorbAll_blocks hg (Nat.mul_div_le (msg ++ padding msg.length).length 64)
  rw [Nat.mul_div_cancel' (padded_length_dvd msg), List.take_length] at hblocks
  rw [Engine.finish_eq (by rw [hxoff]; exact hx) hp, hlen]
  exact (congrArg Context.h hpadded).trans (congrArg Context.h hblocks)

/-- Bytes written to a sequence read back as written. -/
theorem sourceBytes_of_writeBytes {dst : Seq} {bs : List Byte} {i : Nat} {m m' : Memory}
    (h : writeBytes dst bs i m = some m') (hm : m.wf = true) : sourceBytes m' dst i bs.length = bs := by
  obtain ⟨-, hread⟩ := (writeBytes_spec h).2 hm
  refine List.ext_getElem (by simp [sourceBytes]) fun k _ hk => ?_
  simpa [sourceBytes] using hread k hk

@[simp] theorem sourceBytes_length (m : Memory) (src : Seq) (i n : Nat) :
    (sourceBytes m src i n).length = n := by
  simp [sourceBytes]

/-- BLOCK_UPDATE of a range within the sequence that does not overflow the counter. -/
theorem execBlockUpdate_commits {s : State} {g : Engine} (hg : s.engine? = some g) {src : Seq}
    {off len : BitVec 32} (hr : ¬ sourceOutOfRange src off len) (ho : ¬ rangeOverflows g.byteCount len) :
    execBlockUpdate src off len s =
      .next (s.commit ((absorbAll g (sourceBytes s.mem src off.toNat len.toNat)).addCount len.toNat) 0 .none) := by
  have hoff : 0 ≤ int32 off := by omega
  have hlen : 0 ≤ int32 len := by omega
  rw [execBlockUpdate_eq hg, if_neg hr, if_neg ho, (int32_toNat hoff).1, (int32_toNat hlen).1]

/-- No int32 length overflows a counter that stands at zero. -/
theorem not_rangeOverflows_zero (len : BitVec 32) : ¬ rangeOverflows 0 len := by
  have hlen : len.toInt < 2 ^ 31 := BitVec.toInt_lt
  have hmax : len.toInt ≤ 2 ^ 61 - 1 := by omega
  simpa [rangeOverflows, int32] using hmax

/-- DO_FINAL with the output within the sequence writes the digest words of FINISH where they read back. -/
theorem execDoFinal_writes {s : State} {g : Engine} (hg : s.engine? = some g) (hm : s.mem.wf = true) {dst : Seq}
    {doff : BitVec 32} (hr : ¬ outputOutOfRange dst doff) :
    ∃ u, execDoFinal dst doff s = .next u ∧ sourceBytes u.mem dst doff.toNat 20 = digestOf g.finish.h := by
  obtain ⟨hbad, -⟩ | ⟨-, m, hout, hexec⟩ := execDoFinal_eq hg dst doff
  · exact absurd hbad hr
  · refine ⟨_, hexec, ?_⟩
    have hdoff : 0 ≤ int32 doff := by omega
    have hread := sourceBytes_of_writeBytes hout hm
    rwa [(int32_toNat hdoff).1, digestOf_length] at hread

/-- What an engine in the reset state holds. -/
theorem Engine.of_resetContext {g : Engine} (h : g.context = resetContext) :
    g.BlockEmpty ∧ g.h = initialHash ∧ g.byteCount = 0 := by
  have hreset : g.context = Engine.reset.context := h
  obtain ⟨hh, hbuf, hoff, hw, hxoff, hcount⟩ := Engine.context_eq_iff.mp hreset
  exact ⟨⟨hbuf, hoff, hw, hxoff⟩, hh, hcount⟩

/-- Settles O31: BLOCK_UPDATE absorbs and counts the message, and FINISH in DO_FINAL absorbs its padding, so
the whole blocks absorbed are those of the padded message. -/
theorem engineComputesTheDigestOfTheMessage : Obligations.EngineComputesTheDigestOfTheMessage := by
  intro src dst off len doff s hown hm hoff hlen hrange hdoff hout
  obtain ⟨g, hg, hctx⟩ := Option.map_eq_some_iff.mp hown
  obtain ⟨hempty, hinit, hzero⟩ := Engine.of_resetContext (congrArg Prod.fst hctx)
  have hover : ¬ rangeOverflows g.byteCount len := hzero ▸ not_rangeOverflows_zero len
  have hin : ¬ sourceOutOfRange src off len := by
    simp only [sourceOutOfRange, int32]
    omega
  have hfits : ¬ outputOutOfRange dst doff := by
    simp only [outputOutOfRange, int32]
    omega
  set msg := sourceBytes s.mem src off.toNat len.toNat
  obtain ⟨u, hu, hread⟩ := execDoFinal_writes
    (State.commit_engine? hg ((absorbAll g msg).addCount len.toNat) 0 .none) hm hfits
  refine ⟨_, u, execBlockUpdate_commits hg hin hover, hu, ?_⟩
  have hlength : msg.length = len.toNat := sourceBytes_length _ _ _ _
  have hcount : (((absorbAll g msg).addCount len.toNat).release s.free).context =
      ((absorbAll g msg).withCount (BitVec.ofNat 64 msg.length)).context := by
    refine Engine.context_eq_iff.mpr ⟨rfl, rfl, rfl, rfl, rfl, ?_⟩
    simp [hzero, hlength, Engine.withCount]
  rw [hread, Engine.finish_h_of_message hempty (by omega) hcount, hinit, digest]

end Sys2Proof.Machine
end

section
/-! ## What a command leaves unchanged (10_state.md R35) -/

namespace Sys2Proof.Machine

open Reference Claims

/-- Settles O25: the writes of PROCESS_BLOCK stay outside the frame, which holds everything but `H` that a
context record has. -/
theorem processBlockWritesOnlyHash : Obligations.ProcessBlockWritesOnlyHash := by
  refine fun g => ⟨?_, g.processBlock_phase, g.processBlock_bl⟩
  simp only [Engine.context, Engine.processBlock_xbuf, Engine.processBlock_xbufOff, Engine.processBlock_w,
    Engine.processBlock_xoff, Engine.processBlock_byteCount]

/-- A command that answers a next state ran on an existing engine. -/
theorem exec_next_engine? {i : Instr} {s t : State} (h : exec i s = .next t) : ∃ g, s.engine? = some g := by
  cases hg : s.engine? with
  | none => rw [exec_noEngine hg] at h; cases h
  | some g => exact ⟨g, rfl⟩

/-- Queue, target and other instances are as before, and one response is appended, whatever the command. -/
theorem exec_frame {i : Instr} {s t : State} (h : exec i s = .next t) :
    t.queue = s.queue ∧ t.target = s.target ∧ t.engines.length = s.engines.length ∧
    (∀ n, n ≠ s.target → t.engines[n]? = s.engines[n]?) ∧ ∃ r, t.responses = s.responses ++ [r] := by
  obtain ⟨g, hg⟩ := exec_next_engine? h
  obtain ⟨u, hu, he⟩ := exec_ending hg i
  obtain rfl : u = t := Host.Outcome.next.inj (hu.symm.trans h)
  obtain ⟨hqueue, htarget, hlength, hother, r, hr, -⟩ := he.frame
  exact ⟨hqueue, htarget, hlength, hother, r, hr⟩

/-- The two ways an input command ends: it raises a status, or it absorbs and counts its bytes, which do not
take the counter beyond its limit (40_digest_buffer.md R102, R103). -/
theorem exec_input {i : Instr} {s t : State} {g : Engine} {bs : List Byte} (hg : s.engine? = some g)
    (hi : inputBytes s.mem i = some bs) (h : exec i s = .next t) :
    (∃ st, t = s.raise st) ∨
    (t = s.commit ((absorbAll g bs).addCount bs.length) 0 .none ∧
      (g.CounterInvariant → g.byteCount.toNat + bs.length ≤ Config.maxByteCount)) := by
  cases i with
  | update b =>
    obtain rfl : [b] = bs := Option.some.inj hi
    cases (execUpdate_eq hg b).symm.trans h
    split
    · exact .inl ⟨_, rfl⟩
    · next hover =>
      refine .inr ⟨rfl, fun hcount => ?_⟩
      simp only [List.length_singleton]
      omega
  | blockUpdate src off len =>
    obtain rfl := Option.some.inj hi
    cases (execBlockUpdate_eq hg src off len).symm.trans h
    rw [sourceBytes_length]
    split
    · exact .inl ⟨_, rfl⟩
    · split
      · exact .inl ⟨_, rfl⟩
      · exact .inr ⟨rfl, fun _ => by omega⟩
  | doFinal _ _ => cases hi
  | reset => cases hi
  | digestSize => cases hi
  | algorithmName => cases hi
  | ctxSave => cases hi
  | ctxLoad _ => cases hi

/-- The architectural state and phase of the addressed engine after a command that commits. -/
theorem ownState_commit {s : State} {g : Engine} (hg : s.engine? = some g) (e : Engine) (r : BitVec 32)
    (x : Data) : ownState (s.commit e r x) = some (e.context, e.phase) := by
  rw [ownState, State.commit_engine? hg]
  rfl

/-- An input command writes neither host memory nor the phase (20_memory.md R51). -/
theorem exec_input_frame {i : Instr} {s t : State} {bs : List Byte} (hi : inputBytes s.mem i = some bs)
    (h : exec i s = .next t) :
    t.mem = s.mem ∧ (ownState t).map Prod.snd = (ownState s).map Prod.snd := by
  obtain ⟨g, hg⟩ := exec_next_engine? h
  obtain ⟨st, rfl⟩ | ⟨rfl, -⟩ := exec_input hg hi h
  · exact ⟨rfl, rfl⟩
  · refine ⟨rfl, ?_⟩
    rw [ownState_commit hg, ownState, hg]
    simp

/-- Settles O39: UPDATE and BLOCK_UPDATE are the commands that supply input bytes. -/
theorem inputCommandsFrame : Obligations.InputCommandsFrame := by
  intro i s t hi h
  obtain ⟨bs, hbs⟩ : ∃ bs, inputBytes s.mem i = some bs := by
    obtain ⟨b, rfl⟩ | ⟨src, off, len, rfl⟩ := hi
    · exact ⟨_, rfl⟩
    · exact ⟨_, rfl⟩
  obtain ⟨hmem, hphase⟩ := exec_input_frame hbs h
  obtain ⟨hqueue, htarget, hlength, hother, hresp⟩ := exec_frame h
  exact ⟨fun a => by rw [hmem], hmem, hqueue, htarget, hlength, hother, hphase, hresp⟩

/-- OUTPUT writes 20 bytes from `DST[DOFF]` on (41_padding_fsm.md R125). -/
theorem output_frame {dst : Seq} {doff : Nat} {hw : Vector Word 5} {m m' : Memory}
    (h : output dst doff hw m = some m') {a : Nat} (ha : ∀ k, k < 20 → a ≠ dst.base + doff + k) :
    m'.read a = m.read a := by
  refine (writeBytes_spec h).1 a ?_
  rw [digestOf_length]
  by_contra hin
  exact ha (a - (dst.base + doff)) (by omega) (by omega)

/-- Settles O40: DO_FINAL raises, or commits with the memory OUTPUT gives. -/
theorem doFinalFrame : Obligations.DoFinalFrame := by
  intro dst doff s t h
  obtain ⟨g, hg⟩ := exec_next_engine? h
  have hframe := exec_frame h
  obtain ⟨-, hraise⟩ | ⟨hin, m, hout, hcommit⟩ := execDoFinal_eq hg dst doff
  · cases hraise.symm.trans h
    exact ⟨fun _ _ => rfl, fun _ => ⟨rfl, rfl⟩, hframe⟩
  · cases hcommit.symm.trans h
    exact ⟨fun a ha => output_frame hout ha, fun hbad => absurd hbad hin, hframe⟩

/-- CTX_LOAD writes no host memory. -/
theorem execCtxLoad_mem {k : Context} {s t : State} {g : Engine} (hg : s.engine? = some g)
    (h : execCtxLoad k s = .next t) : t.mem = s.mem := by
  cases (execCtxLoad_eq hg k).symm.trans h
  split <;> rfl

/-- Settles O41: RESET and CTX_LOAD write their engine only. -/
theorem resetAndLoadFrame : Obligations.ResetAndLoadFrame := by
  intro i s t hi h
  obtain ⟨g, hg⟩ := exec_next_engine? h
  have hmem : t.mem = s.mem := by
    obtain rfl | ⟨k, rfl⟩ := hi
    · cases (execReset_eq hg).symm.trans h
      rfl
    · exact execCtxLoad_mem hg h
  exact ⟨fun a => by rw [hmem], hmem, exec_frame h⟩

end Sys2Proof.Machine
end

section
/-! ## The invariants hold at reset and every step keeps them (10_state.md R25, R29 to R32) -/

namespace Sys2Proof.Machine

open Reference

/-- RESET_STATE establishes the invariants, whatever the engine held (70_reset_and_hazards.md R231). -/
theorem Engine.resetState_inv (g : Engine) : g.resetState.Inv :=
  ⟨Nat.zero_le _, rfl, ⟨fun i _ => by simp, fun i _ => by simp⟩, Nat.zero_le _, rfl⟩

/-- Settles O9: every engine after construction is one that RESET_STATE leaves. -/
theorem invariantHoldsAtReset : Obligations.InvariantHoldsAtReset := by
  refine ⟨fun g hg => ?_, State.reset_mem_wf, Nat.succ_pos _⟩
  obtain rfl : g = Engine.reset := by
    obtain rfl | hmem := List.mem_cons.mp hg
    · rfl
    · exact List.eq_of_mem_replicate hmem
  exact Engine.reset.resetState_inv

/-- Absorbing and counting a byte string keeps the invariants when the counter stays within its limit. -/
theorem Engine.Inv.absorbAll_addCount {g : Engine} (hg : g.Inv) {bs : List Byte}
    (hmax : g.byteCount.toNat + bs.length ≤ Config.maxByteCount) :
    ((absorbAll g bs).addCount bs.length).Inv := by
  obtain ⟨hx, hp, hz, -, hphase⟩ := hg
  obtain ⟨hpos, hx'⟩ := absorbAll_position hx bs
  have hcount : ((absorbAll g bs).addCount bs.length).byteCount.toNat = g.byteCount.toNat + bs.length := by
    rw [Engine.addCount_byteCount, absorbAll_byteCount, BitVec.toNat_add, BitVec.toNat_ofNat, Nat.add_mod_mod,
      Nat.mod_eq_of_lt (Nat.lt_of_le_of_lt hmax (by decide))]
  have hpos' : ((absorbAll g bs).addCount bs.length).position = (g.position + bs.length) % 64 := hpos
  refine ⟨hx', ?_, absorbAll_zeroInvariant hx hz bs, ?_, ?_⟩
  · rw [Engine.PositionInvariant, hpos', hp, hcount, Nat.mod_add_mod]
  · rwa [Engine.CounterInvariant, hcount]
  · rw [Engine.addCount_phase, absorbAll_phase, hphase]

/-- A record that CTX_LOAD accepts gives an engine that keeps the invariants (43_control.md R164). -/
theorem Engine.loadContext_inv {k : Context} (hk : ¬ contextInvalid k) {g : Engine} (hphase : g.phase = .idle) :
    (g.loadContext k).Inv := by
  simp only [contextInvalid, not_or, not_exists, not_and, not_not] at hk
  obtain ⟨hboff, hxoff, hcount, hpos, hbuf, hw⟩ := hk
  have hboff' : (g.loadContext k).xbufOff.toNat = k.xbufOff.toNat := by
    rw [Engine.loadContext_xbufOff, BitVec.toNat_setWidth, Nat.mod_eq_of_lt (by omega)]
  have hxoff' : (g.loadContext k).xoff.toNat = k.xoff.toNat := by
    rw [Engine.loadContext_xoff, BitVec.toNat_setWidth, Nat.mod_eq_of_lt (by omega)]
  refine ⟨?_, ?_, ⟨?_, ?_⟩, by simpa using hcount, hphase⟩
  · rw [Engine.OffsetsInRange, hxoff']
    omega
  · rwa [Engine.PositionInvariant, Engine.position, hboff', hxoff']
  · rwa [hboff']
  · rwa [hxoff']

/-- OUTPUT keeps the canonical form of host memory. -/
theorem output_wf {dst : Seq} {doff : Nat} {hw : Vector Word 5} {m m' : Memory}
    (h : output dst doff hw m = some m') (hm : m.wf = true) : m'.wf = true :=
  ((writeBytes_spec h).2 hm).1

/-- The addressed engine keeps the invariants in a state that does. -/
theorem State.Inv.engine {s : State} (hs : s.Inv) {g : Engine} (hg : s.engine? = some g) : g.Inv := by
  obtain ⟨hengines, -, -⟩ := hs
  exact hengines g (List.mem_of_getElem? hg)

/-- Another host memory of canonical form keeps the invariants. -/
theorem State.Inv.withMem {s : State} (hs : s.Inv) {m : Memory} (hm : m.wf = true) :
    State.Inv { s with mem := m } := by
  obtain ⟨hengines, -, htarget⟩ := hs
  exact ⟨hengines, hm, htarget⟩

/-- Taking a transaction to an existing engine from the queue keeps the invariants. -/
theorem State.Inv.accept {s : State} (hs : s.Inv) {tx : Transaction} (htx : tx.inst < s.engines.length)
    (rest : List Transaction) : (s.accept tx rest).Inv := by
  obtain ⟨hengines, hmem, -⟩ := hs
  exact ⟨hengines, hmem, htx⟩

/-- A commit keeps the invariants when the engine committed keeps its own: they do not speak of the transient
values it releases. -/
theorem State.Inv.commit {s : State} (hs : s.Inv) {e : Engine} (he : e.Inv) (r : BitVec 32) (x : Data) :
    (s.commit e r x).Inv := by
  obtain ⟨hengines, hmem, htarget⟩ := hs
  refine ⟨fun g hg => ?_, hmem, by simpa using htarget⟩
  obtain hold | rfl := List.mem_or_eq_of_mem_set hg
  · exact hengines g hold
  · exact he

/-- UPDATE and BLOCK_UPDATE keep the invariants. -/
theorem exec_input_inv {i : Instr} {s t : State} {bs : List Byte} (hs : s.Inv)
    (hi : inputBytes s.mem i = some bs) (h : exec i s = .next t) : t.Inv := by
  obtain ⟨g, hg⟩ := exec_next_engine? h
  obtain ⟨st, rfl⟩ | ⟨rfl, hmax⟩ := exec_input hg hi h
  · exact hs
  · have hinv := hs.engine hg
    have ⟨_, _, _, hcount, _⟩ := hinv
    exact hs.commit (hinv.absorbAll_addCount (hmax hcount)) 0 .none

/-- Every command keeps the invariants. -/
theorem exec_inv {i : Instr} {s t : State} (hs : s.Inv) (h : exec i s = .next t) : t.Inv := by
  obtain ⟨g, hg⟩ := exec_next_engine? h
  cases i with
  | update b => exact exec_input_inv hs rfl h
  | blockUpdate src off len => exact exec_input_inv hs rfl h
  | doFinal dst doff =>
    obtain ⟨-, hraise⟩ | ⟨-, m, hout, hcommit⟩ := execDoFinal_eq hg dst doff
    · cases hraise.symm.trans h
      exact hs
    · cases hcommit.symm.trans h
      have ⟨_, hmem, _⟩ := hs
      exact (hs.withMem (output_wf hout hmem)).commit (Engine.resetState_inv _) 20 .none
  | reset =>
    cases (execReset_eq hg).symm.trans h
    exact hs.commit g.resetState_inv 0 .none
  | digestSize =>
    cases (execDigestSize_eq hg).symm.trans h
    exact hs
  | algorithmName =>
    cases (execAlgorithmName_eq hg).symm.trans h
    exact hs
  | ctxSave =>
    cases (execCtxSave_eq hg).symm.trans h
    exact hs
  | ctxLoad k =>
    cases (execCtxLoad_eq hg k).symm.trans h
    split
    · exact hs
    · next hk =>
      obtain ⟨-, -, -, -, hphase⟩ := hs.engine hg
      exact hs.commit (Engine.loadContext_inv hk hphase) 0 .none

/-- Settles O10: a step does nothing, answers an illegal word, or runs a command in the state that accepted
it. -/
theorem stepKeepsTheInvariant : Obligations.StepKeepsTheInvariant := by
  intro s t hs h
  obtain ⟨-, rfl⟩ | ⟨tx, rest, -, htx, hdone⟩ := step_next h
  · exact hs
  · have haccept := hs.accept htx rest
    obtain ⟨-, rfl⟩ | ⟨i, -, hexec⟩ := hdone
    · exact haccept
    · exact exec_inv haccept hexec

end Sys2Proof.Machine
end

section
/-! ## A command's effect depends on its own architectural state, memory and operands (10_state.md R20, R33;
60_exceptions.md R211) -/

namespace Sys2Proof.Machine

open Reference Claims

/-- The counter after `n` more bytes depends on the counter before them. -/
theorem Engine.addCount_congr {g g' : Engine} (h : g.context = g'.context) (n : Nat) :
    (g.addCount n).context = (g'.addCount n).context := by
  obtain ⟨hh, hbuf, hoff, hw, hxoff, hcount⟩ := Engine.context_eq_iff.mp h
  exact Engine.context_eq_iff.mpr ⟨hh, hbuf, hoff, hw, hxoff, congrArg (· + BitVec.ofNat 64 n) hcount⟩

/-- The block position is a function of the architectural state. -/
theorem Engine.position_congr {g g' : Engine} (h : g.context = g'.context) : g.position = g'.position := by
  obtain ⟨-, -, hoff, -, hxoff, -⟩ := Engine.context_eq_iff.mp h
  rw [Engine.position, Engine.position, hoff, hxoff]

/-- The zero loop reads the architectural state only. -/
theorem Engine.absorbZeros_congr (n : Nat) {g g' : Engine} (h : g.context = g'.context) :
    (g.absorbZeros n).context = (g'.absorbZeros n).context := by
  induction n generalizing g g' with
  | zero => exact h
  | succ n ih =>
    rw [Engine.absorbZeros, Engine.absorbZeros, Engine.position_congr h]
    split
    · exact h
    · exact ih (Engine.absorb_congr h 0)

/-- FINISH latches the length before it reads it, so an earlier `BL` does not matter. -/
theorem Engine.finish_congr {g g' : Engine} (h : g.context = g'.context) :
    g.finish.context = g'.finish.context := by
  obtain ⟨-, -, -, -, -, hcount⟩ := Engine.context_eq_iff.mp h
  have hsentinel : g.finSentinel.context = g'.finSentinel.context :=
    Engine.absorb_congr (g := g.latchLength) (g' := g'.latchLength) h 0x80
  rw [Engine.finish, Engine.finish, Engine.finLength_eq, Engine.finLength_eq, Engine.finZero_bl,
    Engine.finZero_bl, Engine.finSentinel_bl, Engine.finSentinel_bl, hcount]
  exact absorbAll_congr (Engine.absorbZeros_congr 128 hsentinel) _

/-- Two states that a command cannot tell apart: their addressed engines `g` and `g'` have the same
architectural state and phase, and host memory is the same. -/
structure State.Alike (s s' : State) (g g' : Engine) : Prop where
  left : s.engine? = some g
  right : s'.engine? = some g'
  context : g.context = g'.context
  phase : g.phase = g'.phase
  mem : s.mem = s'.mem

/-- Two runs that answer next states have the same effect. -/
theorem sameEffect_next {s s' t t' : State} :
    SameEffect s s' (.next t) (.next t') ↔
      ownState t = ownState t' ∧ t.mem = t'.mem ∧
      ∃ st result data, t.responses = s.responses ++ [⟨s.target, st, result, data⟩] ∧
        t'.responses = s'.responses ++ [⟨s'.target, st, result, data⟩] := Iff.rfl

namespace State.Alike

variable {s s' : State} {g g' : Engine} (h : State.Alike s s' g g')

include h

theorem byteCount : g.byteCount = g'.byteCount := congrArg Context.byteCount h.context

/-- The addressed engines read the same. -/
theorem ownState_eq : ownState s = ownState s' := by
  rw [ownState, ownState, h.left, h.right, Option.map_some, Option.map_some, h.context, h.phase]

theorem sameEffect_raise (st : Status) : SameEffect s s' (.next (s.raise st)) (.next (s'.raise st)) :=
  sameEffect_next.mpr ⟨h.ownState_eq, h.mem, st, 0, .none, rfl, rfl⟩

theorem sameEffect_answer (r : BitVec 32) (x : Data) :
    SameEffect s s' (.next (s.answer r x)) (.next (s'.answer r x)) :=
  sameEffect_next.mpr ⟨h.ownState_eq, h.mem, .ok, r, x, rfl, rfl⟩

/-- The same memory in place of both keeps them alike. -/
theorem withMem {m m' : Memory} (hm : m = m') :
    State.Alike { s with mem := m } { s' with mem := m' } g g' :=
  ⟨h.left, h.right, h.context, h.phase, hm⟩

/-- Commits of engines that agree in architectural state and phase have the same effect: the transient values
they release are no part of it. -/
theorem sameEffect_commit {e e' : Engine} (hctx : e.context = e'.context) (hphase : e.phase = e'.phase)
    (r : BitVec 32) (x : Data) : SameEffect s s' (.next (s.commit e r x)) (.next (s'.commit e' r x)) := by
  refine sameEffect_next.mpr ⟨?_, h.mem, .ok, r, x, rfl, rfl⟩
  rw [ownState_commit h.left, ownState_commit h.right, hctx, hphase]

/-- RESET_STATE leaves no trace of the engine before it. -/
theorem sameEffect_commit_resetState (e e' : Engine) (r : BitVec 32) (x : Data) :
    SameEffect s s' (.next (s.commit e.resetState r x)) (.next (s'.commit e'.resetState r x)) :=
  h.sameEffect_commit (e.resetState_context.trans e'.resetState_context.symm)
    (e.resetState_phase.trans e'.resetState_phase.symm) r x

theorem sameEffect_execUpdate (b : Byte) : SameEffect s s' (execUpdate b s) (execUpdate b s') := by
  rw [execUpdate_eq h.left, execUpdate_eq h.right, h.byteCount]
  split
  · exact h.sameEffect_raise _
  · exact h.sameEffect_commit (Engine.addCount_congr (Engine.absorb_congr h.context b) 1) (by simp [h.phase])
      0 .none

theorem sameEffect_execBlockUpdate (src : Seq) (off len : BitVec 32) :
    SameEffect s s' (execBlockUpdate src off len s) (execBlockUpdate src off len s') := by
  rw [execBlockUpdate_eq h.left, execBlockUpdate_eq h.right, h.byteCount, h.mem]
  split
  · exact h.sameEffect_raise _
  · split
    · exact h.sameEffect_raise _
    · exact h.sameEffect_commit (Engine.addCount_congr (absorbAll_congr h.context _) _) (by simp [h.phase])
        0 .none

theorem sameEffect_execDoFinal (dst : Seq) (doff : BitVec 32) :
    SameEffect s s' (execDoFinal dst doff s) (execDoFinal dst doff s') := by
  obtain ⟨hbad, hrun⟩ | ⟨hin, m, hout, hrun⟩ := execDoFinal_eq h.left dst doff
  · obtain ⟨-, hrun'⟩ | ⟨hin', -⟩ := execDoFinal_eq h.right dst doff
    · rw [hrun, hrun']
      exact h.sameEffect_raise _
    · exact absurd hbad hin'
  · obtain ⟨hbad', -⟩ | ⟨-, m', hout', hrun'⟩ := execDoFinal_eq h.right dst doff
    · exact absurd hbad' hin
    · obtain ⟨hhash, -⟩ := Engine.context_eq_iff.mp (Engine.finish_congr h.context)
      rw [hhash, h.mem, hout'] at hout
      rw [hrun, hrun']
      exact (h.withMem (Option.some.inj hout).symm).sameEffect_commit_resetState
        (g.finish.inPhase .finReset) (g'.finish.inPhase .finReset) 20 .none

theorem sameEffect_execCtxLoad (k : Context) : SameEffect s s' (execCtxLoad k s) (execCtxLoad k s') := by
  rw [execCtxLoad_eq h.left, execCtxLoad_eq h.right]
  split
  · exact h.sameEffect_raise _
  · exact h.sameEffect_commit (e := g.loadContext k) (e' := g'.loadContext k) rfl h.phase 0 .none

/-- No command tells two such states apart. -/
theorem sameEffect_exec (i : Instr) : SameEffect s s' (exec i s) (exec i s') := by
  cases i with
  | update b => exact h.sameEffect_execUpdate b
  | blockUpdate src off len => exact h.sameEffect_execBlockUpdate src off len
  | doFinal dst doff => exact h.sameEffect_execDoFinal dst doff
  | reset =>
    simp only [exec, execReset_eq h.left, execReset_eq h.right]
    exact h.sameEffect_commit_resetState g g' 0 .none
  | digestSize =>
    simp only [exec, execDigestSize_eq h.left, execDigestSize_eq h.right]
    exact h.sameEffect_answer 20 .none
  | algorithmName =>
    simp only [exec, execAlgorithmName_eq h.left, execAlgorithmName_eq h.right]
    exact h.sameEffect_answer 5 _
  | ctxSave =>
    simp only [exec, execCtxSave_eq h.left, execCtxSave_eq h.right, h.context]
    exact h.sameEffect_answer 0 _
  | ctxLoad k => exact h.sameEffect_execCtxLoad k

end State.Alike

/-- Settles O44: the hypotheses make the two states alike. -/
theorem effectDependsOnOwnArchitecturalStateOnly : Obligations.EffectDependsOnOwnArchitecturalStateOnly := by
  intro i s s' hsome hown hmem
  obtain ⟨own, hs⟩ := Option.isSome_iff_exists.mp hsome
  obtain ⟨g, hg, rfl⟩ := Option.map_eq_some_iff.mp hs
  obtain ⟨g', hg', hsame⟩ := Option.map_eq_some_iff.mp (hown ▸ hs)
  obtain ⟨hctx, hphase⟩ := Prod.mk.inj hsame
  exact State.Alike.sameEffect_exec ⟨hg, hg', hctx.symm, hphase.symm, hmem⟩ i

end Sys2Proof.Machine
end

section
/-! ## The source's bytes, the reporting commands and the step of a decoded command (20_memory.md R60, R61,
R63) -/

namespace Sys2Proof.Machine

/-- Sequences of the same length with the same bytes read the same at every index: outside them neither read
is defined (00_scope.md R10). -/
theorem memRead_congr {m : Memory} {src src' : Seq} (hlen : src.len = src'.len)
    (hbytes : ∀ i, i < src.len → memRead m src i = memRead m src' i) : memRead m src = memRead m src' := by
  funext i
  by_cases hi : i < src.len
  · exact hbytes i hi
  · rw [memRead, memRead, if_neg hi, if_neg (hlen ▸ hi)]

/-- The loop of BLOCK_UPDATE sees its source only through `memRead`, even where a read is not defined. -/
theorem Engine.absorbRange_congr {m : Memory} {src src' : Seq} (hread : memRead m src = memRead m src')
    (n i : Nat) (g : Engine) : Engine.absorbRange m src n i g = Engine.absorbRange m src' n i g := by
  induction n generalizing i g with
  | zero => rfl
  | succ n ih => simp only [Engine.absorbRange, hread, ih]

/-- Settles O20: the range check sees the length of `SRC`, and the loop its bytes. -/
theorem placementOfTheSourceDoesNotMatter : Obligations.PlacementOfTheSourceDoesNotMatter := by
  intro s src src' off len hlen hbytes
  have hrange : sourceOutOfRange src off len ↔ sourceOutOfRange src' off len := by
    rw [sourceOutOfRange, sourceOutOfRange, hlen]
  simp only [exec, execBlockUpdate, hrange, Engine.absorbRange_congr (memRead_congr hlen hbytes)]

/-- All that a reporting command with a next state does: it answers (43_control.md R161 to R163). -/
theorem exec_reporting {i : Instr} {s t : State} (hi : i = .digestSize ∨ i = .algorithmName ∨ i = .ctxSave)
    (h : exec i s = .next t) : ∃ r x, t = s.answer r x := by
  obtain ⟨g, hg⟩ := exec_next_engine? h
  obtain rfl | rfl | rfl := hi
  · exact ⟨_, _, Host.Outcome.next.inj (h.symm.trans (execDigestSize_eq hg))⟩
  · exact ⟨_, _, Host.Outcome.next.inj (h.symm.trans (execAlgorithmName_eq hg))⟩
  · exact ⟨_, _, Host.Outcome.next.inj (h.symm.trans (execCtxSave_eq hg))⟩

/-- Settles O42: an answer changes the response stream only. -/
theorem reportingCommandsFrame : Obligations.ReportingCommandsFrame := by
  intro i s t hi h
  obtain ⟨r, x, rfl⟩ := exec_reporting hi h
  exact ⟨rfl, fun _ => rfl, rfl, rfl, rfl, rfl, _, s.answer_responses r x⟩

/-- Settles O47: a clean conduct is not the mark of a touched buffer. -/
theorem stepRunsTheDecodedCommand : Obligations.StepRunsTheDecodedCommand := by
  refine ⟨fun s tx rest i hq hinst hover hclean hd => ?_, fun s => step_idle⟩
  exact step_command hq hinst hover hd (by simp [hclean])

end Sys2Proof.Machine
end

section
/-! ## The decoder and the encoder are inverse, and select the rows of the opcode map (30_encoding.md R70 to
R78) -/

namespace Sys2Proof

/-- `IMM8` is zero outside UPDATE (30_encoding.md R72). -/
theorem Instr.opcode_update_or_imm8_zero (i : Instr) : i.opcode = .update ∨ i.imm8 = 0 := by
  cases i with
  | update b => exact .inl rfl
  | blockUpdate src off len => exact .inr rfl
  | doFinal dst doff => exact .inr rfl
  | reset => exact .inr rfl
  | digestSize => exact .inr rfl
  | algorithmName => exact .inr rfl
  | ctxSave => exact .inr rfl
  | ctxLoad k => exact .inr rfl

theorem Instr.wellFormed_blockUpdate {src : Seq} {off len : BitVec 32} :
    (Instr.blockUpdate src off len).WellFormed ↔ src.WellFormed :=
  decide_eq_true_iff

theorem Instr.wellFormed_doFinal {dst : Seq} {doff : BitVec 32} :
    (Instr.doFinal dst doff).WellFormed ↔ dst.WellFormed :=
  decide_eq_true_iff

/-- `decode` on a legal word whose operand record has its shape: the length check decides. -/
theorem decode_of_instr {cmd : BitVec 32} {ops : Operands} {hd : Head} {i : Instr} (hw : decodeWord cmd = some hd)
    (hi : hd.instr ops = some i) :
    decode cmd ops = if i.wellFormed then .command i else .rejected .sequenceTooLong := by
  simp only [decode, hw, hi]

/-- `decode` on a legal word whose operand record has another shape. -/
theorem decode_of_shape {cmd : BitVec 32} {ops : Operands} {hd : Head} (hw : decodeWord cmd = some hd)
    (hi : hd.instr ops = none) : decode cmd ops = .rejected .operandShape := by
  simp only [decode, hw, hi]

/-- All that `decode` accepts: a legal word, a record of its shape, a sequence that is not too long. -/
theorem decode_eq_command {cmd : BitVec 32} {ops : Operands} {i : Instr} :
    decode cmd ops = .command i ↔
      (∃ hd, decodeWord cmd = some hd ∧ hd.instr ops = some i) ∧ i.WellFormed := by
  constructor
  · intro h
    cases hw : decodeWord cmd with
    | none => cases (Machine.decode_illegal_iff.mpr hw).symm.trans h
    | some hd =>
      cases hi : hd.instr ops with
      | none => cases (decode_of_shape hw hi).symm.trans h
      | some j =>
        rw [decode_of_instr hw hi] at h
        split at h
        · next hwf =>
          cases h
          exact ⟨⟨hd, rfl, hi⟩, hwf⟩
        · cases h
  · rintro ⟨⟨hd, hw, hi⟩, hwf⟩
    rw [decode_of_instr hw hi, if_pos hwf]

/-- `decodeWord` reads the encoder's word as the command's opcode and `IMM8`. -/
theorem decodeWord_encodeWord (i : Instr) : decodeWord (encodeWord i) = some ⟨i.opcode, i.imm8⟩ :=
  decodeWord_eq_some_iff_word.mpr ⟨rfl, i.opcode_update_or_imm8_zero⟩

/-- A command word with `IMM8` zero is the pattern of its opcode's row (30_encoding.md R75). -/
theorem commandWord_zero (op : Opcode) : commandWord op 0 = (Laws.row op).pattern := by
  cases op <;> decide

theorem encodeWord_blockUpdate (src : Seq) (off len : BitVec 32) :
    encodeWord (.blockUpdate src off len) = 0x20000000 :=
  commandWord_zero .blockUpdate

theorem encodeWord_doFinal (dst : Seq) (doff : BitVec 32) : encodeWord (.doFinal dst doff) = 0x30000000 :=
  commandWord_zero .doFinal

/-- The encoder's record has the shape of the command's opcode. -/
theorem Head.instr_operands (i : Instr) : Head.instr ⟨i.opcode, i.imm8⟩ i.operands = some i :=
  (Head.instr_eq_some i.opcode_update_or_imm8_zero).mpr ⟨rfl, rfl, rfl⟩

/-- The encoder's transaction for a sequence that is too long is no command (93_implementation_defined.md U15). -/
theorem decode_encode_of_not_wellFormed {i : Instr} (h : ¬ i.WellFormed) :
    decode (encodeWord i) i.operands = .rejected .sequenceTooLong := by
  rw [decode_of_instr (decodeWord_encodeWord i) (Head.instr_operands i), if_neg h]

/-- A command is read from exactly the transaction the encoder makes of it, and only if it is well-formed. -/
theorem decode_eq_command_iff_encode {cmd : BitVec 32} {ops : Operands} {i : Instr} :
    decode cmd ops = .command i ↔ encode i = (cmd, ops) ∧ i.WellFormed := by
  rw [decode_eq_command]
  refine and_congr_left fun _ => ⟨?_, ?_⟩
  · rintro ⟨hd, hw, hi⟩
    obtain ⟨rfl, hlegal⟩ := decodeWord_eq_some_iff_word.mp hw
    obtain ⟨hop, himm, rfl⟩ := (Head.instr_eq_some hlegal).mp hi
    rw [encode, encodeWord, hop, himm]
  · intro h
    obtain ⟨rfl, rfl⟩ := Prod.mk.inj h
    exact ⟨_, decodeWord_encodeWord i, Head.instr_operands i⟩

/-- Settles O1: the encoder's transaction is one of those a well-formed command is read from. -/
theorem decodeOfEncodeIsTheCommand : Obligations.DecodeOfEncodeIsTheCommand :=
  fun _ hwf => decode_eq_command_iff_encode.mpr ⟨rfl, hwf⟩

/-- Settles O2: the encoder's transaction is the only one a command is read from. -/
theorem encodeOfDecodeIsTheTransaction : Obligations.EncodeOfDecodeIsTheTransaction :=
  fun _ _ _ => decode_eq_command_iff_encode.mp

/-- The opcodes `decodeWord` reads, in terms of the three fields (30_encoding.md R76). -/
theorem decodeWord_op_eq_some {cmd : BitVec 32} {op : Opcode} :
    (decodeWord cmd).map Head.op = some op ↔
      opField cmd = op.nibble ∧ rsvField cmd = 0 ∧ (op = .update ∨ immField cmd = 0) := by
  rw [Option.map_eq_some_iff]
  constructor
  · rintro ⟨hd, hw, rfl⟩
    obtain ⟨hop, hrsv, himm, hlegal⟩ := decodeWord_eq_some.mp hw
    exact ⟨hop, hrsv, himm ▸ hlegal⟩
  · rintro ⟨hop, hrsv, hlegal⟩
    exact ⟨⟨op, immField cmd⟩, decodeWord_eq_some.mpr ⟨hop, hrsv, rfl, hlegal⟩, rfl⟩

/-- `CMD & mask = match`, field by field. -/
theorem Row.selects_iff_fields (r : Row) (cmd : BitVec 32) :
    r.Selects cmd ↔
      opField cmd &&& opField r.mask = opField r.pattern ∧ rsvField cmd &&& rsvField r.mask = rsvField r.pattern ∧
        immField cmd &&& immField r.mask = immField r.pattern := by
  have hop : opField (cmd &&& r.mask) = opField cmd &&& opField r.mask := BitVec.extractLsb'_and
  have hrsv : rsvField (cmd &&& r.mask) = rsvField cmd &&& rsvField r.mask := BitVec.extractLsb'_and
  have himm : immField (cmd &&& r.mask) = immField cmd &&& immField r.mask := BitVec.extractLsb'_and
  rw [← hop, ← hrsv, ← himm]
  constructor
  · intro h
    rw [show cmd &&& r.mask = r.pattern from h]
    exact ⟨rfl, rfl, rfl⟩
  · rintro ⟨h1, h2, h3⟩
    exact word_ext h1 h2 h3

/-- The pattern and the mask of each row, field by field: the whole of `OP` and `RSV` is compared, and `IMM8`
outside UPDATE (30_encoding.md R75). -/
theorem row_fields (op : Opcode) :
    opField (Laws.row op).pattern = op.nibble ∧ rsvField (Laws.row op).pattern = 0 ∧
      immField (Laws.row op).pattern = 0 ∧ opField (Laws.row op).mask = BitVec.allOnes 4 ∧
      rsvField (Laws.row op).mask = BitVec.allOnes 20 ∧
      immField (Laws.row op).mask = if op = .update then 0 else BitVec.allOnes 8 := by
  cases op <;> decide

/-- A word selects the row of the opcode `decodeWord` reads from it, and no other. -/
theorem decodeWord_op_iff_selects (op : Opcode) (cmd : BitVec 32) :
    (decodeWord cmd).map Head.op = some op ↔ (Laws.row op).Selects cmd := by
  obtain ⟨hop, hrsv, himm, hopm, hrsvm, himmm⟩ := row_fields op
  rw [decodeWord_op_eq_some, Row.selects_iff_fields, hop, hrsv, himm, hopm, hrsvm, himmm, BitVec.and_allOnes,
    BitVec.and_allOnes]
  by_cases hu : op = .update
  · simp [hu]
  · rw [if_neg hu, BitVec.and_allOnes]
    simp [hu]

/-- Settles O3: the rows are those of the opcode map. -/
theorem wordSelectsRowByMaskAndMatch : Obligations.WordSelectsRowByMaskAndMatch := by
  intro cmd
  refine ⟨fun hd hw => ?_, decodeWord_op_iff_selects .update cmd, decodeWord_op_iff_selects .blockUpdate cmd,
    decodeWord_op_iff_selects .doFinal cmd, decodeWord_op_iff_selects .reset cmd,
    decodeWord_op_iff_selects .digestSize cmd, decodeWord_op_iff_selects .algorithmName cmd,
    decodeWord_op_iff_selects .ctxSave cmd, decodeWord_op_iff_selects .ctxLoad cmd⟩
  obtain ⟨-, -, himm, -⟩ := decodeWord_eq_some.mp hw
  exact himm.symm

/-- The reserved nibbles (30_encoding.md R77). -/
theorem opcodeOf_eq_none {n : BitVec 4} : opcodeOf n = none ↔ n = 0 ∨ 9 ≤ n.toNat := by
  revert n
  decide

/-- Only UPDATE has the nibble `0x1` (30_encoding.md R75). -/
theorem Opcode.nibble_eq_one_iff {op : Opcode} : op.nibble = 1 ↔ op = .update :=
  ⟨fun h => Opcode.nibble_injective (b := .update) h, fun h => h ▸ rfl⟩

/-- `decodeWord` rejects the reserved words and no others. -/
theorem decodeWord_eq_none {cmd : BitVec 32} : decodeWord cmd = none ↔ Claims.ReservedWord cmd := by
  change _ ↔ (opField cmd = 0 ∨ 9 ≤ (opField cmd).toNat) ∨ rsvField cmd ≠ 0 ∨
    (opField cmd ≠ 1 ∧ immField cmd ≠ 0)
  rw [← opcodeOf_eq_none, decodeWord]
  cases ho : opcodeOf (opField cmd) with
  | none => simp
  | some op =>
    have hop : opField cmd = 1#4 ↔ op = .update := opcodeOf_eq_some.mp ho ▸ Opcode.nibble_eq_one_iff
    simp [hop, imp_iff_not_or]

/-- Settles O4: `decode` looks at the word first. -/
theorem illegalWordsAreTheReservedOnes : Obligations.IllegalWordsAreTheReservedOnes :=
  fun _ => ⟨decodeWord_eq_none, fun _ => Machine.decode_illegal_iff.trans decodeWord_eq_none⟩

/-- The opcodes whose command word has no operand bits (30_encoding.md R72). -/
def fixedWordOpcodes : Finset Opcode :=
  {.blockUpdate, .doFinal, .reset, .digestSize, .algorithmName, .ctxSave, .ctxLoad}

theorem mem_fixedWordOpcodes {op : Opcode} : op ∈ fixedWordOpcodes ↔ op ≠ .update := by
  cases op <;> decide

/-- The opcode and `IMM8` of every legal command word: UPDATE with any byte, and each other opcode with zero. -/
def legalFields : Finset (Opcode × Byte) := {.update} ×ˢ Finset.univ ∪ fixedWordOpcodes ×ˢ {0}

theorem mem_legalFields {op : Opcode} {b : Byte} : (op, b) ∈ legalFields ↔ op = .update ∨ b = 0 := by
  simp only [legalFields, Finset.mem_union, Finset.mem_product, Finset.mem_singleton, Finset.mem_univ, and_true,
    mem_fixedWordOpcodes]
  tauto

theorem card_legalFields : legalFields.card = 263 := by
  have hdisj : Disjoint (({.update} : Finset Opcode) ×ˢ (Finset.univ : Finset Byte)) (fixedWordOpcodes ×ˢ {0}) :=
    Finset.disjoint_product.mpr (.inl (by decide))
  have hbytes : Fintype.card Byte = 2 ^ 8 := FinEnum.card_eq_fintypeCard.symm.trans (FinEnum.card_bitVec 8)
  have hfixed : fixedWordOpcodes.card = 7 := rfl
  rw [legalFields, Finset.card_union_of_disjoint hdisj, Finset.card_product, Finset.card_product,
    Finset.card_singleton, Finset.card_singleton, Finset.card_univ, hbytes, hfixed]
  rfl

/-- Different opcodes and bytes make different command words. -/
theorem commandWord_injective : Function.Injective fun p : Opcode × Byte => commandWord p.1 p.2 := by
  rintro ⟨op, b⟩ ⟨op', b'⟩ h
  have hop := congrArg opField h
  have himm := congrArg immField h
  simp only [opField_commandWord, immField_commandWord] at hop himm
  rw [Opcode.nibble_injective hop, himm]

/-- The words `decodeWord` accepts are the command words of the legal fields. -/
theorem decodeWord_ne_none {cmd : BitVec 32} :
    decodeWord cmd ≠ none ↔ ∃ p ∈ legalFields, commandWord p.1 p.2 = cmd := by
  simp only [Option.ne_none_iff_exists', decodeWord_eq_some_iff_word, Prod.exists, mem_legalFields]
  constructor
  · rintro ⟨⟨op, b⟩, rfl, h⟩
    exact ⟨op, b, h, rfl⟩
  · rintro ⟨op, b, h, rfl⟩
    exact ⟨⟨op, b⟩, rfl, h⟩

/-- Settles O5: 256 words of UPDATE and one of each of the seven other opcodes. -/
theorem exactlyTwoHundredSixtyThreeLegalWords : Obligations.ExactlyTwoHundredSixtyThreeLegalWords := by
  have himage : (Finset.univ.filter fun cmd : BitVec 32 => decodeWord cmd ≠ none) =
      legalFields.image fun p => commandWord p.1 p.2 := by
    ext cmd
    simp only [Finset.mem_filter, Finset.mem_univ, true_and, Finset.mem_image, decodeWord_ne_none]
  rw [Obligations.ExactlyTwoHundredSixtyThreeLegalWords, himage,
    Finset.card_image_of_injective _ commandWord_injective, card_legalFields]

/-- Settles O6: a record that makes a command has its opcode's shape, and the commands with a sequence have the
words `0x20000000` and `0x30000000`. -/
theorem recordsOfWrongShapeOrLengthAreRejected : Obligations.RecordsOfWrongShapeOrLengthAreRejected := by
  refine ⟨fun cmd hd rec hw hshape => decode_of_shape hw ?_, fun q off len hlong => ?_, fun q doff hlong => ?_⟩
  · obtain ⟨-, -, -, hlegal⟩ := decodeWord_eq_some.mp hw
    cases hi : hd.instr rec with
    | none => rfl
    | some i =>
      obtain ⟨hop, -, rfl⟩ := (Head.instr_eq_some hlegal).mp hi
      rw [hop] at hshape
      cases i <;> simp [Instr.opcode, Instr.operands] at hshape
  · rw [← encodeWord_blockUpdate q off len]
    exact decode_encode_of_not_wellFormed (i := .blockUpdate q off len)
      (Instr.wellFormed_blockUpdate.not.mpr (Nat.not_le.mpr hlong))
  · rw [← encodeWord_doFinal q doff]
    exact decode_encode_of_not_wellFormed (i := .doFinal q doff)
      (Instr.wellFormed_doFinal.not.mpr (Nat.not_le.mpr hlong))

/-- Settles O7: four encodings, and a reserved word of each kind. -/
theorem specExampleWordsDecode : Obligations.SpecExampleWordsDecode := by
  have decodes : ∀ i : Instr, i.WellFormed → decode (encodeWord i) i.operands = .command i :=
    decodeOfEncodeIsTheCommand
  have illegal : ∀ cmd, Claims.ReservedWord cmd → decode cmd .empty = .illegal :=
    fun cmd h => ((illegalWordsAreTheReservedOnes cmd).2 .empty).mpr h
  exact ⟨decodes (.update 0x61) rfl, decodes (.blockUpdate ⟨0, 3⟩ 0 3) rfl, decodes (.doFinal ⟨0, 20⟩ 0) rfl,
    decodes .reset rfl, illegal _ (.inl (.inl rfl)), illegal _ (.inl (.inr (by decide))),
    illegal _ (.inr (.inl (by decide))), illegal _ (.inr (.inr (by decide)))⟩

end Sys2Proof
end

section
/-! ## Statuses, malformed transactions and the `hash` line (30_encoding.md R73, R79, R81, R82) -/

namespace Sys2Proof.Machine

open Reference Claims

/-- The statuses a command can raise (30_encoding.md R79; 60_exceptions.md R201 to R204, R214). -/
def raisable : Instr → List Status
  | .update _ => [.lengthOverflow]
  | .blockUpdate _ _ _ => [.outOfRange, .lengthOverflow]
  | .doFinal _ _ => [.outOfRange]
  | .reset => []
  | .digestSize => []
  | .algorithmName => []
  | .ctxSave => []
  | .ctxLoad _ => [.invalidContext]

/-- The response a command appends carries `OK` or a status it can raise. -/
theorem exec_status {i : Instr} {s t : State} (h : exec i s = .next t) :
    ∃ r, t.responses = s.responses ++ [r] ∧ (r.status = .ok ∨ r.status ∈ raisable i) := by
  obtain ⟨g, hg⟩ := exec_next_engine? h
  cases i with
  | update b =>
    cases (execUpdate_eq hg b).symm.trans h
    split
    · exact ⟨_, rfl, .inr (by simp [raisable])⟩
    · exact ⟨_, rfl, .inl rfl⟩
  | blockUpdate src off len =>
    cases (execBlockUpdate_eq hg src off len).symm.trans h
    split
    · exact ⟨_, rfl, .inr (by simp [raisable])⟩
    · split
      · exact ⟨_, rfl, .inr (by simp [raisable])⟩
      · exact ⟨_, rfl, .inl rfl⟩
  | doFinal dst doff =>
    obtain ⟨-, hraise⟩ | ⟨-, m, -, hcommit⟩ := execDoFinal_eq hg dst doff
    · cases hraise.symm.trans h
      exact ⟨_, rfl, .inr (by simp [raisable])⟩
    · cases hcommit.symm.trans h
      exact ⟨_, rfl, .inl rfl⟩
  | reset =>
    cases (execReset_eq hg).symm.trans h
    exact ⟨_, rfl, .inl rfl⟩
  | digestSize =>
    cases (execDigestSize_eq hg).symm.trans h
    exact ⟨_, rfl, .inl rfl⟩
  | algorithmName =>
    cases (execAlgorithmName_eq hg).symm.trans h
    exact ⟨_, rfl, .inl rfl⟩
  | ctxSave =>
    cases (execCtxSave_eq hg).symm.trans h
    exact ⟨_, rfl, .inl rfl⟩
  | ctxLoad k =>
    cases (execCtxLoad_eq hg k).symm.trans h
    split
    · exact ⟨_, rfl, .inr (by simp [raisable])⟩
    · exact ⟨_, rfl, .inl rfl⟩

theorem outOfRange_mem_raisable {i : Instr} (h : .outOfRange ∈ raisable i) :
    (∃ src off len, i = .blockUpdate src off len) ∨ ∃ dst doff, i = .doFinal dst doff := by
  cases i <;> simp [raisable] at h ⊢

theorem lengthOverflow_mem_raisable {i : Instr} (h : .lengthOverflow ∈ raisable i) :
    (∃ b, i = .update b) ∨ ∃ src off len, i = .blockUpdate src off len := by
  cases i <;> simp [raisable] at h ⊢

theorem invalidContext_mem_raisable {i : Instr} (h : .invalidContext ∈ raisable i) : ∃ k, i = .ctxLoad k := by
  cases i <;> simp [raisable] at h ⊢

/-- The status of an illegal word is no legal command's. -/
theorem illegalCommand_not_mem_raisable (i : Instr) : .illegalCommand ∉ raisable i := by
  cases i <;> simp [raisable]

/-- Settles O49: the one response is `OK` or carries a status its command can raise. -/
theorem eachStatusHasItsCodeAndItsCommands : Obligations.EachStatusHasItsCodeAndItsCommands := by
  refine ⟨⟨rfl, rfl, rfl, rfl, rfl⟩, fun i s t r h hr => ?_⟩
  obtain ⟨r', hr', hstatus⟩ := exec_status h
  obtain rfl : r' = r := by simpa using hr'.symm.trans hr
  have raised : ∀ st ≠ Status.ok, r'.status = st → st ∈ raisable i := by
    rintro st hne rfl
    exact hstatus.resolve_left hne
  refine ⟨fun hst => outOfRange_mem_raisable (raised _ (by decide) hst),
    fun hst => lengthOverflow_mem_raisable (raised _ (by decide) hst),
    fun hst => invalidContext_mem_raisable (raised _ (by decide) hst),
    fun hst => illegalCommand_not_mem_raisable i (raised _ (by decide) hst), fun hi => ?_⟩
  have hnone : raisable i = [] := by
    obtain rfl | rfl | rfl | rfl := hi <;> rfl
  simpa [hnone] using hstatus

/-- The fetch of a transaction to an engine that does not exist. -/
theorem fetchHead_noSuchInstance {s : State} {tx : Transaction} {rest : List Transaction}
    (h : s.engines.length ≤ tx.inst) : fetchHead s tx rest = .refuse .noSuchInstance := by
  rw [fetchHead, if_pos h]

/-- A step on a transaction the decoder rejects. -/
theorem step_rejected {s : State} {tx : Transaction} {rest : List Transaction} {why : Rejection}
    (hq : s.queue = tx :: rest) (h1 : tx.inst < s.engines.length) (h2 : ¬ overlaps tx rest)
    (hd : decode tx.cmd tx.operands = .rejected why) : step s = .refused (refusalOf why) := by
  rw [step_cons hq, fetchHead_rejected h1 h2 hd, carryOut]

/-- Settles O52: the fetch looks for the engine first, then for overlap, then at the decoder's answer. -/
theorem malformedTransactionsAreRefused : Obligations.MalformedTransactionsAreRefused := by
  intro s tx rest hq
  refine ⟨fun h => ?_, fun h1 h2 => ⟨step_rejected hq h1 h2, step_rejected hq h1 h2⟩⟩
  rw [step_cons hq, fetchHead_noSuchInstance h, carryOut]

/-- The transaction the host issues for a command overlaps none before it (70_reset_and_hazards.md R234). -/
theorem not_overlaps_of_clearFor {s : State} {inst : Nat} (hclear : ClearFor s inst) (i : Instr) :
    ¬ overlaps (transactionOf inst i) s.queue := by
  rintro (hc | hfound)
  · cases hc
  · obtain ⟨tx, htx, hc⟩ := Option.map_eq_some_iff.mp hfound
    exact hclear tx htx hc

/-- A well-formed command issued to an engine that exists, overlapping none before it, is executed there
ahead of the queue (30_encoding.md R70). -/
theorem issue_eq_exec {s : State} {inst : Nat} {i : Instr} (hinst : inst < s.engines.length)
    (hclear : ClearFor s inst) (hi : i.WellFormed) : issue inst i s = exec i { s with target := inst } := by
  have hd : decode (transactionOf inst i).cmd (transactionOf inst i).operands = .command i :=
    decode_eq_command_iff_encode.mpr ⟨rfl, hi⟩
  exact step_command (s := { s with queue := transactionOf inst i :: s.queue }) rfl hinst
    (not_overlaps_of_clearFor hclear i) hd Conduct.noConfusion

/-- A command issued to the engine addressed last. -/
theorem issue_target {s : State} {g : Engine} {i : Instr} (hg : s.engine? = some g) (hclear : ClearFor s s.target)
    (hi : i.WellFormed) : issue s.target i s = exec i s :=
  issue_eq_exec (State.engine?_isSome.mp (by simp [hg])) hclear hi

/-- With `stop`, commands go on being issued exactly after a response `OK` (30_encoding.md R82). -/
theorem issueAll_stop_cons {inst : Nat} {i : Instr} {rest : List (Nat × Instr)} {s t : State} {r : Response}
    (h : issue inst i s = .next t) (hr : t.responses = s.responses ++ [r]) :
    issueAll true ((inst, i) :: rest) s = if r.status = .ok then issueAll true rest t else .next t := by
  have hlast : t.lastResponse = some r := by simp [State.lastResponse, hr]
  simp only [issueAll, h, hlast, Option.map_some, true_and, ne_eq, Option.some.injEq, ite_not]

/-- The last command of a line ends it, whatever its response. -/
theorem issueAll_singleton {inst : Nat} {i : Instr} {s t : State} (h : issue inst i s = .next t) :
    issueAll true [(inst, i)] s = .next t := by
  simp [issueAll, h]

/-- The state after RESET on an engine that exists. -/
def State.afterReset (s : State) (inst : Nat) (g : Engine) : State :=
  State.commit { s with target := inst } g.resetState 0 .none

section HashLine

variable {s : State} {inst : Nat} {g : Engine} {dst src : Seq} {doff off len : BitVec 32}

theorem State.afterReset_engine? (hg : s.engines[inst]? = some g) :
    (s.afterReset inst g).engine? = some (g.resetState.release s.free) :=
  State.commit_engine? (s := { s with target := inst }) hg _ _ _

/-- `hash` begins with the RESET, which answers `OK` (30_encoding.md R82, 43_control.md R160). -/
theorem runLine_hash_eq_afterReset (hg : s.engines[inst]? = some g) (hclear : ClearFor s inst) :
    runLine (.hash inst dst doff src off len) s =
      issueAll true [(inst, .blockUpdate src off len), (inst, .doFinal dst doff)] (s.afterReset inst g) := by
  obtain ⟨hinst, -⟩ := List.getElem?_eq_some_iff.mp hg
  have hreset : issue inst .reset s = .next (s.afterReset inst g) :=
    (issue_eq_exec hinst hclear rfl).trans (execReset_eq hg)
  exact (issueAll_stop_cons hreset rfl).trans (if_pos rfl)

/-- With a bad source range `hash` ends at the BLOCK_UPDATE (40_digest_buffer.md R103). -/
theorem runLine_hash_of_sourceOutOfRange (hg : s.engines[inst]? = some g) (hclear : ClearFor s inst)
    (hsrc : src.WellFormed) (hbad : sourceOutOfRange src off len) :
    runLine (.hash inst dst doff src off len) s = .next ((s.afterReset inst g).raise .outOfRange) := by
  have hg1 := State.afterReset_engine? hg
  have hraise : exec (.blockUpdate src off len) (s.afterReset inst g) =
      .next ((s.afterReset inst g).raise .outOfRange) :=
    (execBlockUpdate_eq hg1 src off len).trans (congrArg _ (if_pos hbad))
  have hissue := (issue_target hg1 hclear (Instr.wellFormed_blockUpdate.mpr hsrc)).trans hraise
  exact (runLine_hash_eq_afterReset hg hclear).trans ((issueAll_stop_cons hissue rfl).trans (if_neg (by simp)))

/-- With a good source range `hash` goes on to the DO_FINAL, in the state that has absorbed the range. -/
theorem runLine_hash_of_absorbed (hg : s.engines[inst]? = some g) (hclear : ClearFor s inst)
    (hsrc : src.WellFormed) (hdst : dst.WellFormed) (hgood : ¬ sourceOutOfRange src off len) :
    ∃ e, exec (.blockUpdate src off len) (s.afterReset inst g) = .next ((s.afterReset inst g).commit e 0 .none) ∧
      ∀ u, exec (.doFinal dst doff) ((s.afterReset inst g).commit e 0 .none) = .next u →
        runLine (.hash inst dst doff src off len) s = .next u := by
  have hg1 := State.afterReset_engine? hg
  have hupdate := execBlockUpdate_commits hg1 hgood (not_rangeOverflows_zero len)
  refine ⟨_, hupdate, fun u hu => ?_⟩
  have hissue := (issue_target hg1 hclear (Instr.wellFormed_blockUpdate.mpr hsrc)).trans hupdate
  have hfinal := issueAll_singleton
    ((issue_target (State.commit_engine? hg1 _ 0 .none) hclear (Instr.wellFormed_doFinal.mpr hdst)).trans hu)
  exact (runLine_hash_eq_afterReset hg hclear).trans ((issueAll_stop_cons hissue rfl).trans hfinal)

end HashLine

/-- Settles O38: the line is RESET, then BLOCK_UPDATE and DO_FINAL on a reset engine, where O31 gives the
digest. -/
theorem hashLineStopsAtARaisedStatus : Obligations.HashLineStopsAtARaisedStatus := by
  intro s inst dst src doff off len hs hinst hclear hsrc hdst
  have hg : s.engines[inst]? = some s.engines[inst] := List.getElem?_eq_getElem hinst
  refine ⟨fun hbad => ⟨_, runLine_hash_of_sourceOutOfRange hg hclear hsrc hbad, rfl, ?_⟩,
    fun hoff hlen hrange => ?_⟩
  · simp [State.afterReset]
  have hgood : ¬ sourceOutOfRange src off len := by
    simp only [sourceOutOfRange, int32]
    omega
  obtain ⟨e, hupdate, hline⟩ := runLine_hash_of_absorbed (doff := doff) hg hclear hsrc hdst hgood
  have hfinal := execDoFinal_eq (State.commit_engine? (State.afterReset_engine? hg) e 0 .none) dst doff
  refine ⟨fun hbad => ?_, fun hdoff hout => ?_⟩
  · obtain ⟨-, hraise⟩ | ⟨hfits, -⟩ := hfinal
    · exact ⟨_, hline _ hraise, rfl, by simp [State.afterReset]⟩
    · exact absurd hbad hfits
  · obtain ⟨-, hmem, -⟩ := hs
    have hown : ownState (s.afterReset inst s.engines[inst]) = some (resetContext, .idle) :=
      ownState_commit (s := { s with target := inst }) hg _ _ _
    obtain ⟨t, u, ht, hu, hdigest⟩ := engineComputesTheDigestOfTheMessage src dst off len doff
      (s.afterReset inst s.engines[inst]) hown hmem hoff hlen hrange hdoff hout
    obtain rfl := Host.Outcome.next.inj (hupdate.symm.trans ht)
    refine ⟨u, hline u hu, ?_, hdigest⟩
    obtain ⟨hbad, -⟩ | ⟨-, m, -, hcommit⟩ := hfinal
    · simp only [outputOutOfRange, int32] at hbad
      omega
    · cases hcommit.symm.trans hu
      simp [State.afterReset]

end Sys2Proof.Machine
end

section
/-! ## ABSORB, PROCESS_WORD and where PROCESS_BLOCK runs (40_digest_buffer.md R100, R101, R106) -/

namespace Sys2Proof.Machine

open Reference

/-- Bits above the lower part of an append are bits of its upper part. -/
theorem extractLsb'_append_add {v w : Nat} (x : BitVec v) (y : BitVec w) (i n : Nat) :
    (x ++ y).extractLsb' (w + i) n = x.extractLsb' i n := by
  refine BitVec.eq_of_getLsbD_eq fun j hj => ?_
  have hhigh : ¬ w + i + j < w := by omega
  have hindex : w + i + j - w = i + j := by omega
  simp only [BitVec.getLsbD_extractLsb', BitVec.getLsbD_append, hhigh, hindex, if_false]

/-- The lowest bits of an append are its lower part. -/
theorem extractLsb'_append_zero {v w : Nat} (x : BitVec v) (y : BitVec w) : (x ++ y).extractLsb' 0 w = y := by
  refine BitVec.eq_of_getLsbD_eq fun j hj => ?_
  simp [BitVec.getLsbD_append, hj]

/-- The bytes of an assembled word, from the top down (20_memory.md R53). -/
theorem beWord_bytes (b0 b1 b2 b3 : Byte) :
    (beWord b0 b1 b2 b3).extractLsb' 24 8 = b0 ∧ (beWord b0 b1 b2 b3).extractLsb' 16 8 = b1 ∧
      (beWord b0 b1 b2 b3).extractLsb' 8 8 = b2 ∧ (beWord b0 b1 b2 b3).extractLsb' 0 8 = b3 := by
  have above (i : Nat) : (beWord b0 b1 b2 b3).extractLsb' (8 + i) 8 = (b0 ++ b1 ++ b2).extractLsb' i 8 :=
    extractLsb'_append_add (b0 ++ b1 ++ b2) b3 i 8
  refine ⟨(above 16).trans ?_, (above 8).trans ?_, (above 0).trans ?_, extractLsb'_append_zero _ _⟩
  · exact (extractLsb'_append_add _ _ 8 8).trans
      ((extractLsb'_append_add _ _ 0 8).trans BitVec.extractLsb'_eq_self)
  · exact (extractLsb'_append_add _ _ 0 8).trans (extractLsb'_append_zero _ _)
  · exact extractLsb'_append_zero _ _

/-- ABSORB of a fourth byte, as PROCESS_WORD of the completed word on the engine before it. -/
theorem Engine.absorb_full_context {g : Engine} (h : g.xbufOff.toNat = 3) (b : Byte) :
    (g.absorb b).context =
      { (g.processWord (g.completedWord b)).context with xbuf := Vector.replicate 4 0, xbufOff := 0 } := by
  obtain ⟨hh, hw, hx⟩ := Engine.processWord_block_congr (g := g.storeByte b) (g' := g) rfl rfl rfl
    (g.completedWord b)
  rw [Engine.absorb_full h]
  simp only [Engine.context, Engine.clearBuffer_h, Engine.clearBuffer_xbuf, Engine.clearBuffer_xbufOff,
    Engine.clearBuffer_w, Engine.clearBuffer_xoff, Engine.clearBuffer_byteCount, Engine.processWord_byteCount,
    Engine.storeByte_byteCount, hh, hw, hx]
  rfl

/-- Settles O12: the word is the one the three held bytes and the new one complete. -/
theorem absorbAssemblesBigEndianWords : Obligations.AbsorbAssemblesBigEndianWords := by
  intro g b
  refine ⟨fun h => Engine.absorb_store h b, fun h => ?_, g.absorb_byteCount b⟩
  obtain ⟨h0, h1, h2, h3⟩ := beWord_bytes g.xbuf[0] g.xbuf[1] g.xbuf[2] b
  exact ⟨g.completedWord b, h0, h1, h2, h3, Engine.absorb_full_context h b⟩

/-- PROCESS_WORD of the 16th word, in the architectural state. -/
theorem Engine.processWord_dispatch_context {g : Engine} (h : g.xoff.toNat = 15) (v : Word) :
    (g.processWord v).context =
      { g.context with
        h := (Engine.processBlock { g with w := g.w.setIfInBounds 15 v }).h,
        w := Vector.replicate 16 0, xoff := 0 } := by
  have hhash : (Engine.processBlock { g with w := g.w.setIfInBounds 15 v, xoff := 16 }).h =
      (Engine.processBlock { g with w := g.w.setIfInBounds 15 v }).h := Engine.processBlock_h_congr rfl rfl
  rw [Engine.processWord_dispatch h]
  simp only [Engine.context, Engine.dispatchBlock_h, Engine.dispatchBlock_w, Engine.dispatchBlock_xoff,
    Engine.dispatchBlock_xbuf, Engine.dispatchBlock_xbufOff, Engine.dispatchBlock_byteCount,
    Engine.processBlock_xbuf, Engine.processBlock_xbufOff, Engine.processBlock_byteCount, hhash]
  rfl

/-- Settles O13: `XOFF` below 15 stores, `XOFF` at 15 dispatches. -/
theorem processWordFillsAndDispatchesBlocks : Obligations.ProcessWordFillsAndDispatchesBlocks :=
  fun _ w => ⟨fun h => Engine.processWord_store h w, fun h => Engine.processWord_dispatch_context h w⟩

/-- Block position 63 is three bytes held and 15 words stored (10_state.md R30). -/
theorem Engine.position_eq_63_iff {g : Engine} :
    g.position = 63 ↔ g.xbufOff.toNat = 3 ∧ g.xoff.toNat = 15 := by
  have := g.xbufOff.isLt
  rw [Engine.position]
  omega

theorem Engine.position_lt_64 {g : Engine} (hx : g.xoff.toNat ≤ 15) : g.position < 64 := by
  have := g.xbufOff.isLt
  rw [Engine.position]
  omega

/-- A byte absorbed elsewhere than at position 63 leaves the hash state alone. -/
theorem Engine.absorb_h_of_position_ne {g : Engine} (hx : g.xoff.toNat ≤ 15) (hp : g.position ≠ 63) (b : Byte) :
    (g.absorb b).h = g.h := by
  have hoff := g.xbufOff.isLt
  rw [Ne, Engine.position_eq_63_iff] at hp
  by_cases ho : g.xbufOff.toNat < 3
  · rw [Engine.absorb_store ho]
  · rw [Engine.absorb_word (by omega) (by omega)]

/-- From position `p` a byte string reaches position 63 once for every 64 bytes counted from the block's start. -/
theorem dispatchCount_eq {g : Engine} (hx : g.xoff.toNat ≤ 15) (bs : List Byte) :
    dispatchCount g bs = (g.position + bs.length) / 64 := by
  induction bs generalizing g with
  | nil => exact (Nat.div_eq_of_lt (Engine.position_lt_64 hx)).symm
  | cons b bs ih =>
    have hlt := Engine.position_lt_64 hx
    obtain ⟨hp, hx'⟩ := Engine.absorb_position hx b
    rw [dispatchCount, ih hx', hp, List.length_cons]
    split <;> omega

/-- Settles O18: at position 63 a fourth byte completes the 16th word. -/
theorem blocksDispatchAtPosition63 : Obligations.BlocksDispatchAtPosition63 := by
  refine fun g hx => ⟨fun b hp => ?_, fun b hp => Engine.absorb_h_of_position_ne hx hp b, dispatchCount_eq hx⟩
  obtain ⟨hoff, hxoff⟩ := Engine.position_eq_63_iff.mp hp
  exact congrArg Context.h (Engine.absorb_block hoff hxoff b)

/-- Settles O19: `beWord` is the concatenation of the four bytes. -/
theorem fourBytesAreOneWord : Obligations.FourBytesAreOneWord :=
  fun _ b0 b1 b2 b3 hoff hbuf => absorbAll_four hoff hbuf b0 b1 b2 b3

end Sys2Proof.Machine
end

section
/-! ## UPDATE and BLOCK_UPDATE absorb and count their bytes (40_digest_buffer.md R102 to R105) -/

namespace Sys2Proof.Machine

open Reference Claims

theorem encodeWord_update (b : Byte) : encodeWord (.update b) = 0x10000000 ||| b.setWidth 32 := by
  have hop : Opcode.nibble .update = 0x1 := rfl
  simp [encodeWord, commandWord, Instr.opcode, Instr.imm8, hop]

/-- A well-formed command is encoded as the encoder's word and record. -/
theorem encodedAs_encode {i : Instr} (hi : i.WellFormed) : EncodedAs i (encodeWord i) i.operands := by
  intro cmd ops
  rw [decode_eq_command_iff_encode, encode, Prod.mk.injEq, and_iff_left hi, eq_comm, eq_comm (a := ops)]

/-- A commit on the addressed engine ends the command with the committed architectural state. -/
theorem ends_commit {s : State} {g : Engine} (hg : s.engine? = some g) (e : Engine) (r : BitVec 32) (x : Data) :
    Ends s (s.commit e r x) e.context r x := by
  refine ⟨?_, rfl, rfl, rfl, by simp, fun n hn => State.commit_other s e r x hn⟩
  rw [State.commit_engine? hg, Option.map_some, Engine.release_context]

theorem Engine.addCount_context (g : Engine) (n : Nat) :
    (g.addCount n).context = { g.context with byteCount := g.byteCount + BitVec.ofNat 64 n } := rfl

/-- Settles O14: a commit of the engine that has absorbed and counted the byte. -/
theorem updateAbsorbsOneByte : Obligations.UpdateAbsorbsOneByte := by
  refine fun b => ⟨encodeWord_update b ▸ encodedAs_encode (i := .update b) rfl, fun s g hg => ?_⟩
  refine ⟨fun hmax => ?_, fun hmax => ⟨s.commit ((g.absorb b).addCount 1) 0 .none, ?_, ?_, rfl⟩⟩
  · exact (execUpdate_eq hg b).trans (congrArg _ (if_pos hmax))
  · exact (execUpdate_eq hg b).trans (congrArg _ (if_neg hmax))
  · have hends := ends_commit hg ((g.absorb b).addCount 1) 0 .none
    rwa [Engine.addCount_context, Engine.absorb_byteCount] at hends

/-- A range of int32 operands within the sequence passes the range check. -/
theorem not_sourceOutOfRange {src : Seq} {off len : BitVec 32} (hoff : 0 ≤ off.toInt) (hlen : 0 ≤ len.toInt)
    (hrange : off.toInt + len.toInt ≤ src.len) : ¬ sourceOutOfRange src off len := by
  simp only [sourceOutOfRange, int32]
  omega

/-- Settles O15: the two checks in order, then a commit of the engine that has absorbed and counted the range. -/
theorem blockUpdateAbsorbsTheRange : Obligations.BlockUpdateAbsorbsTheRange := by
  refine fun src off len => ⟨fun hsrc => ?_, fun s g hg => ⟨fun hbad => ?_, fun hoff hlen hrange => ?_⟩⟩
  · rw [← encodeWord_blockUpdate src off len]
    exact encodedAs_encode (i := .blockUpdate src off len) (Instr.wellFormed_blockUpdate.mpr hsrc)
  · exact (execBlockUpdate_eq hg src off len).trans (congrArg _ (if_pos hbad))
  have hgood := not_sourceOutOfRange hoff hlen hrange
  refine ⟨fun hover => ?_, fun hfits => ⟨_, execBlockUpdate_commits hg hgood ?_, ?_, rfl, fun hinv => ?_⟩⟩
  · exact (execBlockUpdate_eq hg src off len).trans (congrArg _ ((if_neg hgood).trans (if_pos hover)))
  · exact Int.not_lt.mpr hfits
  · have hends := ends_commit hg ((absorbAll g (sourceBytes s.mem src off.toNat len.toNat)).addCount len.toNat)
      0 .none
    rwa [Engine.addCount_context, absorbAll_byteCount, BitVec.ofNat_toNat] at hends
  · obtain ⟨hx, -⟩ := hinv
    have hlt := Engine.position_lt_64 hx
    rw [dispatchCount_eq hx, sourceBytes_length]
    omega

/-- From `s`, whose addressed engine is `g`, the bytes are absorbed and counted within the counter's limit,
which gives the architectural state of every engine and the host memory that `t` has. -/
structure State.Absorbs (s : State) (g : Engine) (bs : List Byte) (t : State) : Prop where
  engine : s.engine? = some g
  engines : t.engines.map Engine.context =
    (s.engines.map Engine.context).set s.target ((absorbAll g bs).addCount bs.length).context
  mem : t.mem = s.mem
  target : t.target = s.target
  limit : g.byteCount.toNat + bs.length ≤ Config.maxByteCount

/-- Committing the engine that has absorbed and counted bytes absorbs them. -/
theorem State.absorbs_commit {s : State} {g : Engine} (hg : s.engine? = some g) {bs : List Byte} {n : Nat}
    (hn : bs.length = n) (hmax : g.byteCount.toNat + n ≤ Config.maxByteCount) :
    s.Absorbs g bs (s.commit ((absorbAll g bs).addCount n) 0 .none) := by
  subst hn
  exact ⟨hg, by simp [List.map_set], rfl, rfl, hmax⟩

/-- No bytes, no change. -/
theorem State.absorbs_nil {s : State} {g : Engine} (hg : s.engine? = some g) (hcount : g.CounterInvariant) :
    s.Absorbs g [] s := by
  refine ⟨hg, ?_, rfl, rfl, hcount⟩
  have hctx : ((absorbAll g []).addCount 0).context = g.context :=
    Engine.context_eq_iff.mpr ⟨rfl, rfl, rfl, rfl, rfl, BitVec.add_zero _⟩
  obtain ⟨hlt, rfl⟩ := List.getElem?_eq_some_iff.mp hg
  rw [List.length_nil, hctx, ← List.getElem_map Engine.context (h := by simpa using hlt), List.set_getElem_self]

/-- The addressed engine after bytes were absorbed. -/
theorem State.Absorbs.engine? {s t : State} {g : Engine} {bs : List Byte} (h : s.Absorbs g bs t) :
    ∃ g', t.engine? = some g' ∧ g'.context = ((absorbAll g bs).addCount bs.length).context := by
  have hlt : s.target < s.engines.length := State.engine?_isSome.mp (by simp [h.engine])
  have hmap : (t.engines.map Engine.context)[s.target]? = some ((absorbAll g bs).addCount bs.length).context := by
    rw [h.engines, List.getElem?_set_self (by simpa using hlt)]
  rw [List.getElem?_map, Option.map_eq_some_iff] at hmap
  rwa [State.engine?, h.target]

/-- The counter after bytes were absorbed has not wrapped. -/
theorem State.Absorbs.byteCount {s t : State} {g g' : Engine} {bs : List Byte} (h : s.Absorbs g bs t)
    (hg' : t.engine? = some g') : g'.byteCount.toNat = g.byteCount.toNat + bs.length := by
  obtain ⟨g'', hg'', hctx⟩ := h.engine?
  obtain rfl := Option.some.inj (hg''.symm.trans hg')
  obtain ⟨-, -, -, -, -, hcount⟩ := Engine.context_eq_iff.mp hctx
  rw [hcount, Engine.addCount_byteCount, absorbAll_byteCount, BitVec.toNat_add, BitVec.toNat_ofNat,
    Nat.add_mod_mod, Nat.mod_eq_of_lt (Nat.lt_of_le_of_lt h.limit (by decide))]

theorem Engine.addCount_eq_withCount (g : Engine) (n : Nat) :
    g.addCount n = g.withCount (g.byteCount + BitVec.ofNat 64 n) := rfl

theorem Engine.addCount_addCount (g : Engine) (n k : Nat) : (g.addCount n).addCount k = g.addCount (n + k) := by
  simp only [Engine.addCount, BitVec.ofNat_add, BitVec.add_assoc]

/-- Counting before a byte string is counting after it: ABSORB does not read the counter. -/
theorem absorbAll_addCount (g : Engine) (n : Nat) (bs : List Byte) :
    (absorbAll (g.addCount n) bs).context = ((absorbAll g bs).addCount n).context := by
  rw [Engine.addCount_eq_withCount, absorbAll_withCount, Engine.addCount_eq_withCount, absorbAll_byteCount]

/-- Absorbing and counting two byte strings in turn is absorbing and counting both. -/
theorem absorbAll_addCount_append (g : Engine) (bs cs : List Byte) :
    ((absorbAll ((absorbAll g bs).addCount bs.length) cs).addCount cs.length).context =
      ((absorbAll g (bs ++ cs)).addCount (bs ++ cs).length).context := by
  rw [Engine.addCount_congr (absorbAll_addCount _ _ _), Engine.addCount_addCount, ← absorbAll_append,
    List.length_append]

/-- Absorbing two byte strings one after the other absorbs their concatenation. -/
theorem State.Absorbs.append {s t u : State} {g g' : Engine} {bs cs : List Byte} (h : s.Absorbs g bs t)
    (h' : t.Absorbs g' cs u) : s.Absorbs g (bs ++ cs) u := by
  obtain ⟨g'', hg'', hctx⟩ := h.engine?
  obtain rfl := Option.some.inj (hg''.symm.trans h'.engine)
  have hcount := h.byteCount hg''
  have hlimit := h'.limit
  refine ⟨h.engine, ?_, h'.mem.trans h.mem, h'.target.trans h.target, ?_⟩
  · rw [h'.engines, h.engines, h.target, List.set_set, Engine.addCount_congr (absorbAll_congr hctx cs),
      absorbAll_addCount_append]
  · rw [List.length_append]
    omega

/-- UPDATE below the counter's limit absorbs its byte. -/
theorem exec_update_absorbs {s : State} {g : Engine} (hg : s.engine? = some g) (b : Byte)
    (hmax : g.byteCount.toNat + 1 ≤ Config.maxByteCount) :
    ∃ t, exec (.update b) s = .next t ∧ s.Absorbs g [b] t :=
  ⟨_, (execUpdate_eq hg b).trans (congrArg _ (if_neg (by omega))), State.absorbs_commit hg (bs := [b]) rfl hmax⟩

/-- BLOCK_UPDATE of a range within the sequence, below the counter's limit, absorbs the range. -/
theorem exec_blockUpdate_absorbs {s : State} {g : Engine} (hg : s.engine? = some g) {src : Seq}
    {off len : BitVec 32} (hoff : 0 ≤ off.toInt) (hlen : 0 ≤ len.toInt) (hrange : off.toInt + len.toInt ≤ src.len)
    (hmax : g.byteCount.toNat + len.toNat ≤ Config.maxByteCount) :
    ∃ t, exec (.blockUpdate src off len) s = .next t ∧
      s.Absorbs g (sourceBytes s.mem src off.toNat len.toNat) t := by
  have hgood := not_sourceOutOfRange hoff hlen hrange
  have hfits : ¬ rangeOverflows g.byteCount len := by
    rw [rangeOverflows, ← (int32_toNat hlen).2]
    omega
  exact ⟨_, execBlockUpdate_commits hg hgood hfits, State.absorbs_commit hg (sourceBytes_length _ _ _ _) hmax⟩

/-- Commands executed one after another: the first answers a next state, from which the others run. -/
theorem execAll_cons_eq_next {i : Instr} {cs : List Instr} {s u : State} :
    execAll (i :: cs) s = .next u ↔ ∃ t, exec i s = .next t ∧ execAll cs t = .next u := by
  cases h : exec i s <;> simp [execAll, h]

/-- The UPDATE commands of a byte string that stays below the counter's limit absorb it. -/
theorem execAll_updates_absorbs {s : State} {g : Engine} (hg : s.engine? = some g) {bs : List Byte}
    (hmax : g.byteCount.toNat + bs.length ≤ Config.maxByteCount) :
    ∃ t, execAll (bs.map .update) s = .next t ∧ s.Absorbs g bs t := by
  induction bs generalizing s g with
  | nil => exact ⟨s, rfl, State.absorbs_nil hg hmax⟩
  | cons b bs ih =>
    rw [List.length_cons] at hmax
    obtain ⟨t, ht, habsorbs⟩ := exec_update_absorbs hg b (by omega)
    obtain ⟨g', hg', -⟩ := habsorbs.engine?
    have hcount : g'.byteCount.toNat = g.byteCount.toNat + 1 := habsorbs.byteCount hg'
    obtain ⟨u, hu, habsorbs'⟩ := ih hg' (by omega)
    exact ⟨u, execAll_cons_eq_next.mpr ⟨t, ht, hu⟩, habsorbs.append habsorbs'⟩

/-- Settles O16: both runs absorb the bytes of the range. -/
theorem blockUpdateEqualsRepeatedUpdate : Obligations.BlockUpdateEqualsRepeatedUpdate := by
  intro src off len s g hg hoff hlen hrange hfits
  have hmax : g.byteCount.toNat + len.toNat ≤ Config.maxByteCount := by
    have hnat : (len.toNat : Int) = len.toInt := (int32_toNat hlen).2
    change g.byteCount.toNat + len.toNat ≤ 2 ^ 61 - 1
    omega
  obtain ⟨t, ht, hblock⟩ := exec_blockUpdate_absorbs hg hoff hlen hrange hmax
  obtain ⟨u, hu, hupdates⟩ := execAll_updates_absorbs hg
    (bs := sourceBytes s.mem src off.toNat len.toNat) (by rwa [sourceBytes_length])
  exact ⟨t, u, ht, hu, hblock.engines.trans hupdates.engines.symm, hblock.mem.trans hupdates.mem.symm⟩

/-- The input commands and the bytes they supply (40_digest_buffer.md R102, R103). -/
theorem inputBytes_eq_some {m : Memory} {i : Instr} {bs : List Byte} :
    inputBytes m i = some bs ↔
      (∃ b, i = .update b ∧ bs = [b]) ∨
      ∃ src off len, i = .blockUpdate src off len ∧ bs = sourceBytes m src (int32 off).toNat (int32 len).toNat := by
  cases i <;> simp [inputBytes, eq_comm]

/-- An input command absorbs its bytes, or its one response carries an error. -/
theorem exec_input_absorbs {i : Instr} {s t : State} {g : Engine} {bs : List Byte} (hg : s.engine? = some g)
    (hcount : g.CounterInvariant) (hi : inputBytes s.mem i = some bs) (h : exec i s = .next t) :
    ∃ r, t.responses = s.responses ++ [r] ∧ (r.status = .ok → s.Absorbs g bs t) := by
  obtain ⟨b, rfl, rfl⟩ | ⟨src, off, len, rfl, rfl⟩ := inputBytes_eq_some.mp hi
  · cases (execUpdate_eq hg b).symm.trans h
    split
    · exact ⟨_, rfl, nofun⟩
    · exact ⟨_, rfl, fun _ => State.absorbs_commit hg (bs := [b]) rfl (by omega)⟩
  · cases (execBlockUpdate_eq hg src off len).symm.trans h
    split
    · exact ⟨_, rfl, nofun⟩
    · split
      · exact ⟨_, rfl, nofun⟩
      · exact ⟨_, rfl, fun _ => State.absorbs_commit hg (sourceBytes_length _ _ _ _) (by omega)⟩

/-- Responses are only appended. -/
theorem execAll_responses {cs : List Instr} {s t : State} (h : execAll cs s = .next t) :
    ∃ rs, t.responses = s.responses ++ rs := by
  induction cs generalizing s with
  | nil =>
    cases h
    exact ⟨[], by simp⟩
  | cons i cs ih =>
    obtain ⟨s', hs', ht⟩ := execAll_cons_eq_next.mp h
    obtain ⟨-, -, -, -, r, hr⟩ := exec_frame hs'
    obtain ⟨rs, hrs⟩ := ih ht
    exact ⟨r :: rs, by simp [hrs, hr]⟩

/-- Input commands that are all answered `OK` absorb the chunks they supply, in order. -/
theorem execAll_inputs_absorbs {cs : List Instr} {chunks : List (List Byte)} {s t : State} {g : Engine}
    (hg : s.engine? = some g) (hcount : g.CounterInvariant)
    (hi : cs.map (inputBytes s.mem) = chunks.map some) (h : execAll cs s = .next t)
    (hok : ∀ r ∈ t.responses.drop s.responses.length, r.status = .ok) : s.Absorbs g chunks.flatten t := by
  induction cs generalizing s g chunks with
  | nil =>
    obtain rfl : chunks = [] := by simpa using hi.symm
    cases h
    exact State.absorbs_nil hg hcount
  | cons i cs ih =>
    obtain ⟨s', hs', ht⟩ := execAll_cons_eq_next.mp h
    obtain ⟨bs, chunks, rfl⟩ : ∃ bs rest, chunks = bs :: rest :=
      List.exists_cons_of_ne_nil (by rintro rfl; simp at hi)
    obtain ⟨hbs, hrest⟩ := List.cons.inj hi
    obtain ⟨r, hr, habsorbs⟩ := exec_input_absorbs hg hcount hbs hs'
    obtain ⟨rs, hrs⟩ := execAll_responses ht
    obtain ⟨hrok, hrsok⟩ : r.status = .ok ∧ ∀ r' ∈ rs, r'.status = .ok := by simpa [hrs, hr] using hok
    have hfirst := habsorbs hrok
    obtain ⟨g', hg', -⟩ := hfirst.engine?
    have hcount' : g'.CounterInvariant := (hfirst.byteCount hg').trans_le hfirst.limit
    exact hfirst.append (ih hg' hcount' (hfirst.mem ▸ hrest) ht (by simpa [hrs] using hrsok))

/-- Settles O17: both runs absorb the bytes of the range; that the chunks did not overflow the counter says that
the range does not. -/
theorem chunkingDoesNotMatter : Obligations.ChunkingDoesNotMatter := by
  intro cs chunks src off len s t hs hi h hok hoff hlen hrange hflat
  have ⟨_, _, htarget⟩ := hs
  obtain ⟨g, hg⟩ := Option.isSome_iff_exists.mp (State.engine?_isSome.mpr htarget)
  obtain ⟨-, -, -, hcount, -⟩ := hs.engine hg
  have hchunks := execAll_inputs_absorbs hg hcount hi h hok
  rw [hflat] at hchunks
  have hmax := hchunks.limit
  rw [sourceBytes_length] at hmax
  obtain ⟨u, hu, hblock⟩ := exec_blockUpdate_absorbs hg hoff hlen hrange hmax
  exact ⟨u, hu, hblock.engines.trans hchunks.engines.symm⟩

end Sys2Proof.Machine
end

section
/-! ## FINISH absorbs the padding up to a block's end (41_padding_fsm.md R121, R123, R128) -/

namespace Sys2Proof.Machine

open Reference

/-- The bit length of a message of `BYTECOUNT` bytes is the value `BL` latches (41_padding_fsm.md R121). -/
theorem ofNat_bitLength (n : BitVec 64) : BitVec.ofNat 64 (8 * n.toNat) = n * 8 :=
  BitVec.eq_of_toNat_eq (by simp [Nat.mul_comm])

/-- Behind `p` bytes with room for sentinel and length the padding ends the block, behind more it ends the next
one (41_padding_fsm.md R123). -/
theorem padding_length (n : Nat) :
    (padding n).length = if n % 64 ≤ 55 then 64 - n % 64 else 128 - n % 64 := by
  simp only [padding, zeroCount, List.length_cons, List.length_append, List.length_replicate, List.length_map,
    List.length_range]
  split <;> omega

/-- Block position 0 is an empty block with an empty assembly buffer (10_state.md R30). -/
theorem Engine.position_eq_zero_iff {g : Engine} : g.position = 0 ↔ g.xoff = 0 ∧ g.xbufOff = 0 := by
  rw [Engine.position, Nat.add_eq_zero_iff, BitVec.toNat_eq (x := g.xoff), BitVec.toNat_eq (x := g.xbufOff)]
  simp

/-- FINISH leaves the architectural state after the padding: what it latches is transient. -/
theorem Engine.finish_context {g : Engine} (hg : g.Inv) :
    g.finish.context = (absorbAll g (padding g.byteCount.toNat)).context := by
  obtain ⟨hx, hp, -⟩ := hg
  rw [Engine.finish_eq hx hp]
  exact absorbAll_congr g.latchLength_context _

/-- FINISH ends at block position 0 (41_padding_fsm.md R128). -/
theorem Engine.finish_position {g : Engine} (hg : g.Inv) : g.finish.position = 0 := by
  obtain ⟨hx, hp, -⟩ := hg
  obtain ⟨hpos, -⟩ := absorbAll_position (g := g.latchLength) hx (padding g.byteCount.toNat)
  have hstart : g.latchLength.position = g.byteCount.toNat % 64 := hp
  rw [Engine.finish_eq hx hp, hpos, hstart, padding_length]
  split <;> omega

/-- Settles O26: the padding is what FINISH absorbs, and it fills the block. -/
theorem finishAbsorbsThePadding : Obligations.FinishAbsorbsThePadding :=
  fun _ hg => ⟨Engine.finish_context hg, Engine.position_eq_zero_iff.mp (Engine.finish_position hg)⟩

end Sys2Proof.Machine
end

section
/-! ## FINISH hashes the blocks that the held bytes and the padding make (10_state.md R30, R31; 41_padding_fsm.md
R123) -/

namespace Sys2Proof.Machine

open Reference

/-- Four consecutive bytes of a bit string, most significant first, make the word that stands there. -/
theorem beWord_extractLsb' {n : Nat} (x : BitVec n) (i : Nat) :
    beWord (x.extractLsb' (i + 24) 8) (x.extractLsb' (i + 16) 8) (x.extractLsb' (i + 8) 8) (x.extractLsb' i 8) =
      x.extractLsb' i 32 := by
  rw [beWord, BitVec.extractLsb'_append_extractLsb'_eq_extractLsb' (by omega),
    BitVec.extractLsb'_append_extractLsb'_eq_extractLsb' (by omega),
    BitVec.extractLsb'_append_extractLsb'_eq_extractLsb' (by omega)]

/-- A word is assembled from its bytes in output order (20_memory.md R53, R55). -/
theorem beWord_outByte (w : Word) : beWord (outByte w 0) (outByte w 1) (outByte w 2) (outByte w 3) = w :=
  (beWord_extractLsb' w 0).trans BitVec.extractLsb'_eq_self

/-- The first `k` entries of a vector, the others zero. -/
def Reference.firstEntries {n m : Nat} (v : Vector (BitVec m) n) (k : Nat) : Vector (BitVec m) n :=
  Vector.ofFn fun j : Fin n => if j.val < k then v[j] else 0

theorem firstEntries_zero {n m : Nat} (v : Vector (BitVec m) n) : firstEntries v 0 = Vector.replicate n 0 := by
  ext j hj
  simp [firstEntries]

theorem firstEntries_succ {n m : Nat} (v : Vector (BitVec m) n) {k : Nat} (hk : k < n) :
    (firstEntries v k).setIfInBounds k v[k] = firstEntries v (k + 1) := by
  apply Vector.ext
  intro j hj
  by_cases h : j = k
  · subst h
    simp [firstEntries]
  · rw [Vector.getElem_setIfInBounds_ne _ (Ne.symm h)]
    simp [firstEntries, show j ≤ k ↔ j < k by omega]

/-- A vector that is zero from entry `k` on is its first `k` entries. -/
theorem firstEntries_eq_self {n m : Nat} {v : Vector (BitVec m) n} {k : Nat}
    (h : ∀ i : Fin n, k ≤ i.val → v[i] = 0) : firstEntries v k = v := by
  apply Vector.ext
  intro j hj
  rw [firstEntries, Vector.getElem_ofFn]
  split
  · rfl
  · exact (h ⟨j, hj⟩ (by omega)).symm

/-- The engine before the bytes it holds: the same hash state and counter, block and assembly buffer empty. -/
def Engine.atBlockStart (g : Engine) : Engine :=
  (g.withBlock (Vector.replicate 16 0) 0).withBuffer (Vector.replicate 4 0) 0

theorem Engine.atBlockStart_blockEmpty (g : Engine) : g.atBlockStart.BlockEmpty := ⟨rfl, rfl, rfl, rfl⟩

/-- With an empty assembly buffer, whatever the block, the bytes of a word store the word. -/
theorem absorbAll_outBytes {g : Engine} (hg : g.BlockEmpty) (w : Vector Word 16) (n : BitVec 5) (v : Word) :
    (absorbAll (g.withBlock w n) ((List.range 4).map (outByte v))).context =
      ((g.withBlock w n).processWord v).context := by
  have hbytes : (List.range 4).map (outByte v) = [outByte v 0, outByte v 1, outByte v 2, outByte v 3] := rfl
  rw [hbytes, absorbAll_four (g := g.withBlock w n) hg.xbufOff hg.xbuf, beWord_outByte]

/-- Absorbing the bytes of `k` words, `k` below 16, fills an empty block with those words. -/
theorem absorbAll_wordBytes {g : Engine} (hg : g.BlockEmpty) (w : Vector Word 16) {k : Nat} (hk : k ≤ 15) :
    (absorbAll g ((w.toList.take k).flatMap fun v => (List.range 4).map (outByte v))).context =
      (g.withBlock (firstEntries w k) (BitVec.ofNat 5 k)).context := by
  induction k with
  | zero =>
    rw [firstEntries_zero, ← hg.w, show BitVec.ofNat 5 0 = g.xoff from hg.xoff.symm]
    rfl
  | succ k ih =>
    have hk' : k < w.toList.length := by rw [Vector.length_toList]; omega
    have hoff : (BitVec.ofNat 5 k).toNat = k := by simp only [BitVec.toNat_ofNat]; omega
    rw [List.take_succ_eq_append_getElem hk', List.flatMap_append, List.flatMap_singleton, absorbAll_append,
      absorbAll_congr (ih (by omega)), Vector.getElem_toList,
      absorbAll_outBytes hg,
      Engine.processWord_withBlock _ _ (by omega), hoff, firstEntries_succ w (by omega), BitVec.ofNat_add]
    rfl

/-- Absorbing `k` bytes, `k` below 4, fills an empty assembly buffer with those bytes. -/
theorem absorbAll_bufferBytes {g : Engine} (hoff : g.xbufOff = 0) (hbuf : g.xbuf = Vector.replicate 4 0)
    (buf : Vector Byte 4) {k : Nat} (hk : k ≤ 3) :
    absorbAll g (buf.toList.take k) = g.withBuffer (firstEntries buf k) (BitVec.ofNat 2 k) := by
  induction k with
  | zero =>
    rw [firstEntries_zero, ← hbuf, show BitVec.ofNat 2 0 = g.xbufOff from hoff.symm]
    rfl
  | succ k ih =>
    have hk' : k < buf.toList.length := by rw [Vector.length_toList]; omega
    have hoff' : (BitVec.ofNat 2 k).toNat = k := by simp only [BitVec.toNat_ofNat]; omega
    rw [List.take_succ_eq_append_getElem hk', absorbAll_append, ih (by omega), absorbAll_cons, absorbAll_nil,
      Vector.getElem_toList, Engine.absorb_withBuffer _ _ (by omega), hoff', firstEntries_succ buf (by omega),
      BitVec.ofNat_add]
    rfl

/-- An engine of the invariants is what absorbing the bytes it holds makes of its block's start. -/
theorem absorbAll_heldBytes {g : Engine} (hx : g.xoff.toNat ≤ 15) (hz : g.ZeroInvariant) :
    (absorbAll g.atBlockStart (heldBytes g)).context = g.context := by
  obtain ⟨hbuf, hw⟩ := hz
  rw [heldBytes, absorbAll_append,
    absorbAll_congr (absorbAll_wordBytes g.atBlockStart_blockEmpty g.w hx),
    absorbAll_bufferBytes rfl rfl g.xbuf (Nat.le_of_lt_succ g.xbufOff.isLt), firstEntries_eq_self hw,
    firstEntries_eq_self hbuf, BitVec.ofNat_toNat, BitVec.ofNat_toNat, BitVec.setWidth_eq, BitVec.setWidth_eq]
  rfl

/-- The bytes held and the padding are a whole number of blocks, one or two (41_padding_fsm.md R123). -/
theorem held_padding_length {g : Engine} (hg : g.Inv) :
    (heldBytes g ++ padding g.byteCount.toNat).length = if g.byteCount.toNat % 64 ≤ 55 then 64 * 1 else 64 * 2 := by
  obtain ⟨hx, hp, -⟩ := hg
  rw [List.length_append, heldBytes_length hx, hp, padding_length]
  split <;> omega

/-- FINISH hashes the `n` blocks that the bytes held and the padding make. -/
theorem Engine.finish_h {g : Engine} (hg : g.Inv) {n : Nat}
    (hn : (heldBytes g ++ padding g.byteCount.toNat).length = 64 * n) :
    g.finish.h = hashBlocks g.h (heldBytes g ++ padding g.byteCount.toNat) n := by
  have ⟨hx, _, hz, _⟩ := hg
  have hblocks := absorbAll_blocks g.atBlockStart_blockEmpty hn.ge
  rw [← hn, List.take_length, absorbAll_append, absorbAll_congr (absorbAll_heldBytes hx hz)] at hblocks
  obtain ⟨hh, -⟩ := Engine.context_eq_iff.mp ((Engine.finish_context hg).trans hblocks)
  exact hh

/-- PROCESS_BLOCK runs once for each of these blocks (40_digest_buffer.md R106). -/
theorem dispatchCount_padding {g : Engine} (hg : g.Inv) {n : Nat}
    (hn : (heldBytes g ++ padding g.byteCount.toNat).length = 64 * n) :
    dispatchCount g (padding g.byteCount.toNat) = n := by
  obtain ⟨hx, -⟩ := hg
  rw [dispatchCount_eq hx, ← heldBytes_length hx, ← List.length_append, hn, Nat.mul_div_cancel_left n (by decide)]

/-- The reference hash of one block is PROCESS_BLOCK's of it. -/
theorem hashBlocks_one (g : Engine) (bs : List Byte) :
    hashBlocks g.h bs 1 = (Engine.processBlock { g with w := blockAt bs 0 }).h :=
  (hashBlocks_succ g.h bs 0).trans (Engine.processBlock_h_eq_compress { g with w := blockAt bs 0 }).symm

/-- The reference hash of two blocks is PROCESS_BLOCK's of the first and then of the second. -/
theorem hashBlocks_two (g : Engine) (bs : List Byte) :
    hashBlocks g.h bs 2 =
      (Engine.processBlock
        { Engine.processBlock { g with w := blockAt bs 0 } with w := blockAt bs 1 }).h := by
  rw [hashBlocks_succ, hashBlocks_one]
  exact (Engine.processBlock_h_eq_compress
    { Engine.processBlock { g with w := blockAt bs 0 } with w := blockAt bs 1 }).symm

/-- The padding with its number of zero bytes written out. -/
theorem padding_eq_of_zeroCount {n : BitVec 64} {z : Nat} (hz : zeroCount n.toNat = z) :
    padding n.toNat = 0x80 :: (List.replicate z 0x00 ++ (List.range 8).map (lengthByte (n * 8))) := by
  rw [padding, hz, ofNat_bitLength]

/-- Settles O27: the padding completes one block behind at most 55 bytes held, and two behind more. -/
theorem paddingLengthAndBlockCount : Obligations.PaddingLengthAndBlockCount := by
  intro g hg
  have hlen := held_padding_length hg
  refine ⟨padding g.byteCount.toNat, Engine.finish_context hg, fun hroom => ?_, fun hfull => ?_⟩
  · rw [if_pos hroom] at hlen
    exact ⟨padding_eq_of_zeroCount (if_pos hroom), (padding_length _).trans (if_pos hroom),
      dispatchCount_padding hg hlen, (Engine.finish_h hg hlen).trans (hashBlocks_one g _)⟩
  · have hnot : ¬ g.byteCount.toNat % 64 ≤ 55 := by omega
    rw [if_neg hnot] at hlen
    exact ⟨padding_eq_of_zeroCount (if_neg hnot), (padding_length _).trans (if_neg hnot),
      dispatchCount_padding hg hlen, (Engine.finish_h hg hlen).trans (hashBlocks_two g _)⟩

end Sys2Proof.Machine
end

section
/-! ## The word-level description of FINISH (41_padding_fsm.md R122) -/

namespace Sys2Proof.Machine

open Reference

/-- A byte moves `XBUF_OFF` on by one, modulo 4 (40_digest_buffer.md R100). -/
@[simp] theorem Engine.absorb_xbufOff (g : Engine) (b : Byte) : (g.absorb b).xbufOff = g.xbufOff + 1 := by
  have := g.xbufOff.isLt
  by_cases ho : g.xbufOff.toNat < 3
  · rw [Engine.absorb_store ho]
  · have h3 : g.xbufOff = 3 := BitVec.eq_of_toNat_eq (by simp; omega)
    rw [Engine.absorb_full (by rw [h3]; rfl), Engine.clearBuffer_xbufOff, h3]
    rfl

/-- The word-level finish absorbs the zero bytes to the next word boundary. -/
theorem zerosToWord_eq {n k : Nat} {g : Engine} (hk : (g.xbufOff.toNat + k) % 4 = 0) (hk4 : k < 4) (hn : k ≤ n) :
    zerosToWord n g = absorbAll g (List.replicate k 0) := by
  have hoff := g.xbufOff.isLt
  induction n generalizing g k with
  | zero =>
    obtain rfl : k = 0 := by omega
    rfl
  | succ n ih =>
    unfold zerosToWord
    split
    · next h =>
      obtain rfl : k = 0 := by rw [h] at hk; simp at hk; omega
      rfl
    · next h =>
      have hne : g.xbufOff.toNat ≠ 0 := fun h0 => h (BitVec.eq_of_toNat_eq (by simpa using h0))
      obtain ⟨j, rfl⟩ : ∃ j, k = j + 1 := ⟨k - 1, by omega⟩
      have hnext : (g.absorb 0).xbufOff.toNat = (g.xbufOff.toNat + 1) % 4 := by
        rw [Engine.absorb_xbufOff, BitVec.toNat_add]
        rfl
      rw [ih (k := j) (by omega) (by omega) (by omega) (by omega), List.replicate_succ, absorbAll_cons]

/-- An engine at a word boundary: no byte of the next word is held, and the words that do not count are zero. -/
structure Engine.AtWord (g : Engine) : Prop where
  xbufOff : g.xbufOff = 0
  xbuf : g.xbuf = Vector.replicate 4 0
  xoff : g.xoff.toNat ≤ 15
  w : ∀ i : Fin 16, g.xoff.toNat ≤ i.val → g.w[i] = 0

/-- A word boundary under the zero invariant. -/
theorem Engine.atWord_of_zeroInvariant {g : Engine} (hoff : g.xbufOff = 0) (hx : g.xoff.toNat ≤ 15)
    (hz : g.ZeroInvariant) : g.AtWord := by
  obtain ⟨hbuf, hw⟩ := hz
  refine ⟨hoff, ?_, hx, hw⟩
  refine Vector.ext fun i hi => ?_
  rw [Vector.getElem_replicate]
  exact hbuf ⟨i, hi⟩ (by simp [hoff])

/-- The assembly buffer is filled as the block position says (10_state.md R30). -/
theorem Engine.xbufOff_toNat (g : Engine) : g.xbufOff.toNat = g.position % 4 := by
  have := g.xbufOff.isLt
  rw [Engine.position]
  omega

/-- Zero bytes to a multiple of four reach a word boundary. -/
theorem Engine.atWord_absorbZeros {g : Engine} (hx : g.xoff.toNat ≤ 15) (hz : g.ZeroInvariant) {j : Nat}
    (hj : (g.position + j) % 4 = 0) :
    (absorbAll g (List.replicate j 0)).AtWord ∧
      4 * (absorbAll g (List.replicate j 0)).xoff.toNat = (g.position + j) % 64 := by
  obtain ⟨hpos, hx'⟩ := absorbAll_position hx (List.replicate j 0)
  have hoff := (absorbAll g (List.replicate j 0)).xbufOff_toNat
  rw [List.length_replicate] at hpos
  have hzero : (absorbAll g (List.replicate j 0)).xbufOff.toNat = 0 := by omega
  refine ⟨Engine.atWord_of_zeroInvariant (BitVec.eq_of_toNat_eq hzero) hx' (absorbAll_zeroInvariant hx hz _), ?_⟩
  rwa [Engine.position, hzero] at hpos

/-- At a word boundary the next word is zero already. -/
theorem Engine.AtWord.store_zero {g : Engine} (hg : g.AtWord) : g.w.setIfInBounds g.xoff.toNat 0 = g.w := by
  have hlt : g.xoff.toNat < 16 := Nat.lt_succ_of_le hg.xoff
  refine Vector.ext fun i hi => ?_
  rw [Vector.getElem_setIfInBounds]
  split
  · next h =>
    subst h
    exact (hg.w ⟨_, hlt⟩ le_rfl).symm
  · rfl

/-- At a word boundary four zero bytes are the zero word. -/
theorem absorbAll_zeroWord {g : Engine} (hg : g.AtWord) :
    (absorbAll g (List.replicate 4 0)).context = (g.processWord 0).context :=
  absorbAll_four hg.xbufOff hg.xbuf 0 0 0 0

/-- Zero words that stay within the block only move `XOFF` (10_state.md R31). -/
theorem absorbAll_zeroWords {g : Engine} (hg : g.AtWord) {k : Nat} (hk : g.xoff.toNat + k ≤ 15) :
    (absorbAll g (List.replicate (4 * k) 0)).context = (g.withBlock g.w (g.xoff + BitVec.ofNat 5 k)).context := by
  induction k generalizing g with
  | zero => rw [BitVec.add_zero]; rfl
  | succ k ih =>
    have hx : (g.xoff + 1).toNat = g.xoff.toNat + 1 := by
      rw [BitVec.toNat_add]
      simp
      omega
    have hnext : (g.withBlock g.w (g.xoff + 1)).AtWord :=
      ⟨hg.xbufOff, hg.xbuf, by change (g.xoff + 1).toNat ≤ 15; omega, fun i hi => hg.w i (by
        change (g.xoff + 1).toNat ≤ _ at hi
        omega)⟩
    have hstore : g.processWord 0 = g.withBlock g.w (g.xoff + 1) := by
      rw [Engine.processWord_store (by omega), hg.store_zero]
      rfl
    rw [Nat.mul_succ, Nat.add_comm, List.replicate_add, absorbAll_append, absorbAll_congr (absorbAll_zeroWord hg),
      hstore, ih hnext (by change (g.xoff + 1).toNat + k ≤ 15; omega), Nat.add_comm k 1, BitVec.ofNat_add,
      ← BitVec.add_assoc]
    rfl

/-- Room for the length (41_padding_fsm.md R122): a block with more than 14 words is dispatched. -/
def Engine.withRoom (g : Engine) : Engine := if g.xoff.toNat > 14 then g.dispatchBlock else g

/-- At a word boundary, the zero bytes up to block position 56 make room for the length and set `XOFF` to 14. -/
theorem absorbAll_zerosToLength {g : Engine} (hg : g.AtWord) {k : Nat}
    (hk : (4 * g.xoff.toNat + k) % 64 = 56) (hk64 : k < 64) :
    (absorbAll g (List.replicate k 0)).context = (g.withRoom.withBlock g.withRoom.w 14).context := by
  have hx := hg.xoff
  by_cases hfull : g.xoff.toNat > 14
  · have h15 : g.xoff.toNat = 15 := by omega
    obtain rfl : k = 4 + 4 * 14 := by omega
    have hempty : g.dispatchBlock.AtWord :=
      ⟨by simp [hg.xbufOff], by simp [hg.xbuf], by simp, fun i _ => by simp⟩
    have hdispatch : (g.processWord 0).context = g.dispatchBlock.context := by
      rw [Engine.processWord_dispatch h15, ← h15, hg.store_zero, Engine.context_eq_iff]
      simp only [Engine.dispatchBlock_h, Engine.dispatchBlock_xbuf, Engine.dispatchBlock_xbufOff,
        Engine.dispatchBlock_w, Engine.dispatchBlock_xoff, Engine.dispatchBlock_byteCount,
        Engine.processBlock_xbuf, Engine.processBlock_xbufOff, Engine.processBlock_byteCount, and_self, and_true]
      exact Engine.processBlock_h_congr rfl rfl
    rw [List.replicate_add, absorbAll_append, absorbAll_congr ((absorbAll_zeroWord hg).trans hdispatch),
      absorbAll_zeroWords hempty (by simp), Engine.withRoom, if_pos hfull, Engine.dispatchBlock_xoff]
    rfl
  · obtain rfl : k = 4 * (14 - g.xoff.toNat) := by omega
    have h14 : g.xoff + BitVec.ofNat 5 (14 - g.xoff.toNat) = 14 := by
      apply BitVec.eq_of_toNat_eq
      rw [BitVec.toNat_add]
      simp
      omega
    rw [absorbAll_zeroWords hg (by omega), h14, Engine.withRoom, if_neg hfull]

/-- Making room keeps the assembly buffer empty. -/
theorem Engine.AtWord.withRoom_buffer {g : Engine} (hg : g.AtWord) :
    g.withRoom.xbufOff = 0 ∧ g.withRoom.xbuf = Vector.replicate 4 0 := by
  unfold Engine.withRoom
  split
  · simp [hg.xbufOff, hg.xbuf]
  · exact ⟨hg.xbufOff, hg.xbuf⟩

/-- The block with the 64-bit length in its last two words (41_padding_fsm.md R122). -/
def Engine.withLength (g : Engine) (bl : BitVec 64) : Engine :=
  { g with w := (g.w.setIfInBounds 14 (bl.extractLsb' 32 32)).setIfInBounds 15 (bl.extractLsb' 0 32) }

/-- From block position 56 the eight length bytes fill the last two words, and the block is processed. -/
theorem absorbAll_lengthBytes {g : Engine} (hoff : g.xbufOff = 0) (hbuf : g.xbuf = Vector.replicate 4 0)
    (bl : BitVec 64) :
    (absorbAll (g.withBlock g.w 14) ((List.range 8).map (lengthByte bl))).h = (g.withLength bl).processBlock.h := by
  have hhigh := absorbAll_four (g := g.withBlock g.w 14) hoff hbuf
    (lengthByte bl 0) (lengthByte bl 1) (lengthByte bl 2) (lengthByte bl 3)
  rw [show beWord (lengthByte bl 0) (lengthByte bl 1) (lengthByte bl 2) (lengthByte bl 3) = bl.extractLsb' 32 32
    from beWord_extractLsb' bl 32, Engine.processWord_withBlock _ _ (by decide)] at hhigh
  have hlow := absorbAll_four
    (g := g.withBlock (g.w.setIfInBounds 14 (bl.extractLsb' 32 32)) 15) hoff hbuf
    (lengthByte bl 4) (lengthByte bl 5) (lengthByte bl 6) (lengthByte bl 7)
  rw [show beWord (lengthByte bl 4) (lengthByte bl 5) (lengthByte bl 6) (lengthByte bl 7) = bl.extractLsb' 0 32
    from beWord_extractLsb' bl 0] at hlow
  have hbytes : (List.range 8).map (lengthByte bl) =
      [lengthByte bl 0, lengthByte bl 1, lengthByte bl 2, lengthByte bl 3] ++
        [lengthByte bl 4, lengthByte bl 5, lengthByte bl 6, lengthByte bl 7] := rfl
  obtain ⟨hh, -⟩ := Engine.context_eq_iff.mp ((absorbAll_congr hhigh _).trans hlow)
  rw [hbytes, absorbAll_append, hh, Engine.processWord_dispatch rfl, Engine.dispatchBlock_h]
  exact Engine.processBlock_h_congr rfl rfl

/-- The word-level finish, in terms of its parts. -/
theorem finishWords_eq (g : Engine) :
    finishWords g = ((zerosToWord 3 (g.absorb 0x80)).withRoom.withLength (g.byteCount * 8)).dispatchBlock :=
  rfl

/-- Behind `n` bytes and the sentinel the zero bytes of the padding end at block position 56. -/
theorem zeroCount_spec (n : Nat) : (n % 64 + 1 + zeroCount n) % 64 = 56 ∧ zeroCount n < 64 := by
  rw [zeroCount]
  split <;> omega

/-- From an engine at a word boundary, zero bytes up to position 56 and the length leave the `H` of the word-level
finish. -/
theorem absorbAll_lastBlock {g : Engine} (hg : g.AtWord) {k : Nat} (hk : (4 * g.xoff.toNat + k) % 64 = 56)
    (hk64 : k < 64) (bl : BitVec 64) :
    (absorbAll g (List.replicate k 0 ++ (List.range 8).map (lengthByte bl))).h =
      (g.withRoom.withLength bl).dispatchBlock.h := by
  obtain ⟨hoff, hbuf⟩ := hg.withRoom_buffer
  obtain ⟨hh, -⟩ := Engine.context_eq_iff.mp
    (absorbAll_congr (absorbAll_zerosToLength hg hk hk64) ((List.range 8).map (lengthByte bl)))
  rw [absorbAll_append, hh, absorbAll_lengthBytes hoff hbuf, Engine.dispatchBlock_h]

/-- Settles O28: both descriptions absorb the sentinel and the zero bytes to the next word boundary; from there
the zero words only move `XOFF` or dispatch the block, and the length bytes are its last two words. -/
theorem wordLevelFinishAgrees : Obligations.WordLevelFinishAgrees := by
  intro g hg
  have ⟨hx, hp, hz, _⟩ := hg
  obtain ⟨hend, hlt⟩ := zeroCount_spec g.byteCount.toNat
  obtain ⟨hpos, hx'⟩ := Engine.absorb_position hx 0x80
  have hoff := (g.absorb 0x80).xbufOff_toNat
  obtain ⟨j, hj⟩ : ∃ j, j = (4 - (g.absorb 0x80).xbufOff.toNat) % 4 := ⟨_, rfl⟩
  obtain ⟨k, hk⟩ : ∃ k, zeroCount g.byteCount.toNat = j + k := Nat.exists_eq_add_of_le (by omega)
  obtain ⟨hword, hwpos⟩ := Engine.atWord_absorbZeros hx' (Engine.absorb_zeroInvariant hx hz 0x80)
    (j := j) (by omega)
  obtain ⟨hh, -⟩ := Engine.context_eq_iff.mp (Engine.finish_context hg)
  rw [hh, padding_eq_of_zeroCount hk, absorbAll_cons, List.replicate_add, List.append_assoc, absorbAll_append,
    absorbAll_lastBlock hword (by omega) (by omega), finishWords_eq,
    zerosToWord_eq (k := j) (by omega) (by omega) (by omega)]

end Sys2Proof.Machine
end

section
/-! ## The rows of the padding FSM (41_padding_fsm.md R124) -/

namespace Sys2Proof.Machine

open Reference

/-- PROCESS_WORD moves `XOFF` on by one, and to 0 when it has stored the 16th word (40_digest_buffer.md R101). -/
theorem Engine.processWord_xoff_toNat (g : Engine) (v : Word) :
    (g.processWord v).xoff.toNat = if g.xoff.toNat = 15 then 0 else (g.xoff.toNat + 1) % 32 := by
  split
  · next h =>
    rw [Engine.processWord_dispatch h, Engine.dispatchBlock_xoff]
    rfl
  · next h =>
    have hne : g.xoff + 1 ≠ 16 := fun hc => h (congrArg BitVec.toNat (eq_sub_iff_add_eq.mpr hc))
    rw [Engine.processWord, if_neg hne]
    exact BitVec.toNat_add g.xoff 1

/-- ABSORB moves `XOFF` with the fourth byte of a word only (40_digest_buffer.md R100). -/
theorem Engine.absorb_xoff_toNat (g : Engine) (b : Byte) :
    (g.absorb b).xoff.toNat =
      if g.xbufOff.toNat = 3 then (if g.xoff.toNat = 15 then 0 else (g.xoff.toNat + 1) % 32)
      else g.xoff.toNat := by
  have := g.xbufOff.isLt
  split
  · next h =>
    rw [Engine.absorb_full h, Engine.clearBuffer_xoff, Engine.processWord_xoff_toNat, Engine.storeByte_xoff]
  · rw [Engine.absorb_store (by omega)]

/-- The block position after one byte, from every value of the two offsets (log 14). -/
theorem Engine.absorb_position_any (g : Engine) (b : Byte) :
    (g.absorb b).position = if g.position = 63 then 0 else (g.position + 1) % 128 := by
  have hoff := g.xbufOff.isLt
  have hxoff := g.xoff.isLt
  have hnext : (g.absorb b).xbufOff.toNat = (g.xbufOff.toNat + 1) % 4 := by
    rw [Engine.absorb_xbufOff, BitVec.toNat_add]
    rfl
  rw [Engine.position, Engine.position, Engine.absorb_xoff_toNat, hnext]
  split
  · split <;> split <;> omega
  · split <;> omega

/-- How many bytes a block position is before 56: those at 64 and beyond, which no run reaches, count up to 127
and go on from 0 (log 14). -/
def bytesTo56 (p : Nat) : Nat := if p ≤ 56 then 56 - p else if p < 64 then 120 - p else 184 - p

theorem bytesTo56_eq_zero_iff {p : Nat} (hp : p < 128) : bytesTo56 p = 0 ↔ p = 56 := by
  rw [bytesTo56]
  split_ifs <;> omega

/-- The two offsets bound the block position by their widths. -/
theorem Engine.position_lt_128 (g : Engine) : g.position < 128 := by
  have := g.xbufOff.isLt
  have := g.xoff.isLt
  rw [Engine.position]
  omega

/-- A byte absorbed elsewhere than at position 56 comes one byte nearer to it. -/
theorem Engine.bytesTo56_absorb {g : Engine} (h : g.position ≠ 56) (b : Byte) :
    bytesTo56 (g.absorb b).position + 1 = bytesTo56 g.position := by
  have hlt := g.position_lt_128
  rw [Engine.absorb_position_any, bytesTo56, bytesTo56]
  split_ifs <;> omega

/-- The zero loop reaches block position 56 when it may run for as many rounds as that takes. -/
theorem Engine.absorbZeros_position {n : Nat} {g : Engine} (hn : bytesTo56 g.position ≤ n) :
    (g.absorbZeros n).position = 56 := by
  induction n generalizing g with
  | zero => exact (bytesTo56_eq_zero_iff g.position_lt_128).mp (Nat.le_zero.mp hn)
  | succ n ih =>
    unfold Engine.absorbZeros
    split
    · assumption
    · next h =>
      have := Engine.bytesTo56_absorb h 0
      exact ih (by omega)

/-- Block position 56 is 14 words and an empty assembly buffer (10_state.md R30). -/
theorem Engine.position_eq_56_iff {g : Engine} : g.position = 56 ↔ g.xoff = 14 ∧ g.xbufOff = 0 := by
  have := g.xbufOff.isLt
  rw [Engine.position, BitVec.toNat_eq (x := g.xoff), BitVec.toNat_eq (x := g.xbufOff)]
  simp
  omega

/-- FIN_ZERO ends at block position 56 from every value of the two offsets. -/
theorem Engine.finZero_position (g : Engine) : g.finZero.position = 56 := by
  rw [Engine.finZero, Engine.absorbZeros_position]
  rw [bytesTo56]
  split_ifs <;> omega

/-- FIN_ZERO with the offsets in range: the zero bytes up to block position 56. -/
theorem Engine.finZero_eq {g : Engine} (hx : g.xoff.toNat ≤ 15) :
    g.finZero =
      absorbAll g (List.replicate (if g.position ≤ 56 then 56 - g.position else 120 - g.position) 0x00) := by
  have hlt := Engine.position_lt_64 hx
  rw [Engine.finZero]
  refine Engine.absorbZeros_exact hx ?_ ?_ <;> split <;> omega

section Rows
variable {dst : Seq} {doff : Nat} {r : FinalRun}

theorem fsmStep_idle (h : r.eng.phase = .idle) : fsmStep dst doff r = some r := by
  rw [fsmStep, h]

theorem fsmStep_finSentinel (h : r.eng.phase = .finSentinel) :
    fsmStep dst doff r = some { r with eng := r.eng.finSentinel.inPhase .finZero } := by
  rw [fsmStep, h]

theorem fsmStep_finZero (h : r.eng.phase = .finZero) :
    fsmStep dst doff r = some { r with eng := r.eng.finZero.inPhase .finLength } := by
  rw [fsmStep, h]

theorem fsmStep_finLength (h : r.eng.phase = .finLength) :
    fsmStep dst doff r = some { r with eng := r.eng.finLength.inPhase .finOutput } := by
  rw [fsmStep, h]

theorem fsmStep_finOutput (h : r.eng.phase = .finOutput) :
    fsmStep dst doff r =
      (output dst doff r.eng.h r.mem).map fun m => { eng := r.eng.inPhase .finReset, mem := m } := by
  rw [fsmStep, h]
  cases output dst doff r.eng.h r.mem <;> rfl

theorem fsmStep_finReset (h : r.eng.phase = .finReset) :
    fsmStep dst doff r = some { r with eng := r.eng.resetState } := by
  rw [fsmStep, h]

end Rows

/-- An engine in a phase is itself put into that phase. -/
theorem Engine.inPhase_of_phase {g : Engine} {p : Phase} (h : g.phase = p) : g.inPhase p = g := by
  subst h
  rfl

/-- From `FIN_SENTINEL` with the output in range the FSM is idle after five rows. -/
theorem runFsm_idle {dst : Seq} {doff : Nat} {r : FinalRun} (h : r.eng.phase = .finSentinel)
    (hfits : doff + 20 ≤ dst.len) : ∃ r', runFsm dst doff 5 r = some r' ∧ r'.eng.phase = .idle := by
  obtain ⟨m, hm⟩ := output_isSome hfits r.eng.finish.h r.mem
  refine ⟨⟨(r.eng.finish.inPhase .finReset).resetState, m⟩, ?_, Engine.resetState_phase _⟩
  have hrun := runFsm_eq (dst := dst) (doff := doff) (g := r.eng) (m := r.mem)
  rwa [Engine.inPhase_of_phase h, hm] at hrun

/-- Settles O29: one row at a time, then the run of five. -/
theorem paddingFsmFollowsItsTable : Obligations.PaddingFsmFollowsItsTable := by
  refine ⟨fun _ _ _ => fsmStep_idle, fun dst doff r r' h => ⟨?_, ?_, ?_, ?_, ?_⟩, fun _ _ _ => runFsm_idle⟩
  · intro hp
    obtain rfl := Option.some.inj ((fsmStep_finSentinel hp).symm.trans h)
    exact ⟨rfl, rfl, r.eng.finSentinel_bl, Engine.absorb_congr r.eng.latchLength_context 0x80⟩
  · intro hp
    obtain rfl := Option.some.inj ((fsmStep_finZero hp).symm.trans h)
    obtain ⟨hxoff, hoff⟩ := Engine.position_eq_56_iff.mp r.eng.finZero_position
    refine ⟨rfl, rfl, r.eng.finZero_bl, hxoff, hoff, fun hx => ?_⟩
    rw [Engine.inPhase_context, Engine.finZero_eq hx]
  · intro hp
    obtain rfl := Option.some.inj ((fsmStep_finLength hp).symm.trans h)
    refine ⟨rfl, rfl, ?_⟩
    rw [Engine.inPhase_context, Engine.finLength_eq]
  · intro hp
    obtain ⟨m, hm, rfl⟩ := Option.map_eq_some_iff.mp ((fsmStep_finOutput hp).symm.trans h)
    exact ⟨rfl, rfl, hm⟩
  · intro hp
    obtain rfl := Option.some.inj ((fsmStep_finReset hp).symm.trans h)
    exact ⟨rfl, rfl, rfl⟩

end Sys2Proof.Machine
end

section
/-! ## DO_FINAL writes the digest and resets the engine (41_padding_fsm.md R120, R125, R126) -/

namespace Sys2Proof.Machine

open Claims

/-- Byte `4 * j + k` of words in output order is byte `k` of word `j` (20_memory.md R55). -/
theorem getElem?_wordBytes (ws : List Word) {j k : Nat} (hk : k < 4) :
    (ws.flatMap fun w => (List.range 4).map (outByte w))[4 * j + k]? = ws[j]?.map fun w => outByte w k := by
  induction ws generalizing j with
  | nil => rfl
  | cons w ws ih =>
    rw [List.flatMap_cons]
    cases j with
    | zero =>
      rw [List.getElem?_append_left (by simpa using hk)]
      simp [hk]
    | succ j =>
      rw [List.getElem?_append_right (by simp; omega), List.getElem?_cons_succ, ← ih]
      congr 1
      simp
      omega

/-- Byte `4 * j + k` of a digest is byte `k` of `H[j]` (41_padding_fsm.md R125). -/
theorem digestOf_getElem? (h : Vector Word 5) (j : Fin 5) {k : Nat} (hk : k < 4) :
    (digestOf h)[4 * j.val + k]? = some (outByte h[j] k) := by
  rw [digestOf, getElem?_wordBytes _ hk]
  simp

/-- The digest bytes OUTPUT has written read back at their index (20_memory.md R52, R55). -/
theorem memRead_of_output {dst : Seq} {doff : Nat} {h : Vector Word 5} {m m' : Memory}
    (hout : output dst doff h m = some m') (hm : m.wf = true) (hfits : doff + 20 ≤ dst.len) (j : Fin 5) {k : Nat}
    (hk : k < 4) : memRead m' dst (doff + 4 * j.val + k) = some (outByte h[j] k) := by
  obtain ⟨-, hstored⟩ := (writeBytes_spec hout).2 hm
  obtain ⟨hlt, hbyte⟩ := List.getElem?_eq_some_iff.mp (digestOf_getElem? h j hk)
  refine memRead_eq_some.mpr ⟨by omega, ?_⟩
  rw [← hbyte, ← hstored _ hlt]
  congr 1
  omega

/-- Settles O30: `execDoFinal` raises, or commits the reset engine with the memory OUTPUT gives. -/
theorem doFinalWritesTheDigestAndResets : Obligations.DoFinalWritesTheDigestAndResets := by
  refine fun dst doff => ⟨fun hdst => ?_, fun s g hg => ⟨fun hbad => ?_, fun hdoff hfits => ?_⟩⟩
  · rw [← encodeWord_doFinal dst doff]
    exact encodedAs_encode (i := .doFinal dst doff) (Instr.wellFormed_doFinal.mpr hdst)
  · obtain ⟨-, hraise⟩ | ⟨hin, -⟩ := execDoFinal_eq hg dst doff
    · exact hraise
    · exact absurd hbad hin
  · obtain ⟨hnat, hint⟩ := int32_toNat hdoff
    obtain ⟨hbad, -⟩ | ⟨-, m, hout, hcommit⟩ := execDoFinal_eq hg dst doff
    · simp only [outputOutOfRange, int32] at hbad
      omega
    rw [hnat] at hout
    have hrange : doff.toNat + 20 ≤ dst.len := by
      simp only [int32] at hint
      omega
    refine ⟨_, hcommit, ?_, fun hm j k => memRead_of_output hout hm hrange j k.isLt, fun a ha => ?_⟩
    · exact ends_commit (s := { s with mem := m }) hg (g.finish.inPhase .finReset).resetState 20 .none
    · exact output_frame hout fun k hk => by omega

end Sys2Proof.Machine
end

section
/-! ## The schedule of the words, the functions and the constants, and the identities of the mixing functions and
rotations (42_compression.md R141 to R143, R148 to R150; 00_scope.md R8) -/

namespace Sys2Proof.Machine

/-- Settles O21: word `i` is written once, from words that are final by then, and the first 16 are not written. -/
theorem expansionFollowsTheRecurrence : Obligations.ExpansionFollowsTheRecurrence := by
  refine fun g => ⟨fun i hi hlt => ?_, fun i hi => g.expand_getW_of_lt hi⟩
  obtain ⟨n, rfl⟩ := Nat.exists_eq_add_of_le hi
  rw [g.expand_getW_recurrence (by omega), rotl_eq_rotateLeft (by omega)]

/-- Settles O24: before each step the window holds the 16 latest words of the expanded schedule. -/
theorem processBlockIsTheWindowedCompression : Obligations.ProcessBlockIsTheWindowedCompression :=
  Engine.processBlock_h_eq_compress

/-- Steps 0 to 19 (42_compression.md R143). -/
theorem round_first {t : Nat} (h : t ≤ 19) : roundFunction t = mixF ∧ roundConstant t = 0x5a827999 :=
  ⟨if_pos (by omega), if_pos (by omega)⟩

/-- Steps 20 to 39 (42_compression.md R143). -/
theorem round_second {t : Nat} (h : 20 ≤ t) (h' : t ≤ 39) :
    roundFunction t = mixP ∧ roundConstant t = 0x6ed9eba1 := by
  simp only [roundFunction, roundConstant, show ¬t < 20 by omega, show t < 40 by omega, if_true, if_false, and_self]

/-- Steps 40 to 59 (42_compression.md R143). -/
theorem round_third {t : Nat} (h : 40 ≤ t) (h' : t ≤ 59) :
    roundFunction t = mixG ∧ roundConstant t = 0x8f1bbcdc := by
  simp only [roundFunction, roundConstant, show ¬t < 20 by omega, show ¬t < 40 by omega, show t < 60 by omega,
    if_true, if_false, and_self]

/-- Steps 60 to 79 (42_compression.md R143). -/
theorem round_fourth {t : Nat} (h : 60 ≤ t) : roundFunction t = mixP ∧ roundConstant t = 0xca62c1d6 := by
  simp only [roundFunction, roundConstant, show ¬t < 20 by omega, show ¬t < 40 by omega, show ¬t < 60 by omega,
    if_false, and_self]

/-- Settles O22: one round at a time; what remains are the formulas of `F`, `P` and `G` (42_compression.md
R142). -/
theorem roundScheduleAsTabulated : Obligations.RoundScheduleAsTabulated := by
  refine fun t u v w => ⟨fun h => ?_, fun h h' => ?_, fun h h' => ?_, fun h _ => ?_⟩
  · obtain ⟨hf, hk⟩ := round_first h
    exact ⟨by rw [hf, mixF], hk⟩
  · obtain ⟨hf, hk⟩ := round_second h h'
    exact ⟨by rw [hf, mixP], hk⟩
  · obtain ⟨hf, hk⟩ := round_third h h'
    exact ⟨by rw [hf, mixG], hk⟩
  · obtain ⟨hf, hk⟩ := round_fourth h
    exact ⟨by rw [hf, mixP], hk⟩

/-- `F` chooses: where a bit of `u` is set it takes `v`'s, else `w`'s. -/
@[simp] theorem mixF_getElem (u v w : Word) {i : Nat} (hi : i < 32) :
    (mixF u v w)[i] = bif u[i] then v[i] else w[i] := by
  cases hu : u[i] <;> simp [mixF, hu]

/-- `G` is the majority of its three arguments, bit by bit. -/
@[simp] theorem mixG_getElem (u v w : Word) {i : Nat} (hi : i < 32) :
    (mixG u v w)[i] = Bool.atLeastTwo u[i] v[i] w[i] := by
  simp [mixG, Bool.atLeastTwo]

/-- The two terms of `F` have no bit in common, so their `or` is their `xor`. -/
theorem mixF_eq_xor (u v w : Word) : mixF u v w = (u &&& v) ^^^ (~~~u &&& w) := by
  ext i hi
  cases hu : u[i] <;> simp [hu]

/-- A majority bit is set in one or in all three of the pairs' conjunctions. -/
theorem mixG_eq_xor (u v w : Word) : mixG u v w = (u &&& v) ^^^ (u &&& w) ^^^ (v &&& w) := by
  ext i hi
  cases hu : u[i]
  · simp [hu]
  · cases hv : v[i] <;> simp [hu, hv]

theorem mixF_allOnes (v w : Word) : mixF 0xFFFFFFFF v w = v := by
  ext i hi
  rw [mixF_getElem, show (0xFFFFFFFF : Word) = BitVec.allOnes 32 from rfl, BitVec.getElem_allOnes, cond_true]

theorem mixF_zero (v w : Word) : mixF 0 v w = w := by
  ext i hi
  simp

theorem mixP_self (u w : Word) : mixP u u w = w := by
  simp [mixP]

theorem mixG_self (u w : Word) : mixG u u w = u := by
  ext i hi
  cases hu : u[i] <;> simp [hu]

/-- Bit `n` from the left of a rotated word is bit `r + n` modulo 32 of the word. -/
theorem rotl_getMsbD {r n : Nat} (hr : r < 32) (hn : n < 32) (x : Word) :
    (rotl r x).getMsbD n = x.getMsbD ((r + n) % 32) := by
  rw [rotl_eq_rotateLeft hr, BitVec.getMsbD_rotateLeft, decide_eq_true hn, Bool.true_and]

/-- Rotations compose by adding their amounts modulo 32. -/
theorem rotl_rotl {a b : Nat} (ha : a < 32) (hb : b < 32) (x : Word) :
    rotl a (rotl b x) = rotl ((a + b) % 32) x := by
  refine BitVec.eq_of_getMsbD_eq fun n hn => ?_
  rw [rotl_getMsbD ha hn, rotl_getMsbD hb (Nat.mod_lt _ (by omega)), rotl_getMsbD (Nat.mod_lt _ (by omega)) hn]
  congr 1
  omega

theorem rotl_thirty (x : Word) : rotl 30 x = x.rotateRight 2 := by
  rw [rotl, BitVec.rotateRight_def, BitVec.or_comm]

/-- Settles O23: `F` and `G` bit by bit, and the rotations by the places of the bits. -/
theorem mixingAndRotationIdentities : Obligations.MixingAndRotationIdentities :=
  ⟨mixF_eq_xor, mixG_eq_xor, fun v w => ⟨mixF_allOnes v w, mixF_zero v w⟩,
    fun u w => ⟨mixP_self u w, mixG_self u w⟩, fun _ _ x _ ha _ hb _ => rotl_rotl ha hb x, rotl_thirty⟩

end Sys2Proof.Machine
end

section
/-! ## The control commands and the `clone` line (43_control.md R160 to R165; 30_encoding.md R82) -/

namespace Sys2Proof.Machine

open Claims

/-- A well-formed command without an `IMM8` is encoded as the pattern of its opcode's row and its record
(30_encoding.md R75). -/
theorem encodedAs_pattern {i : Instr} (hi : i.WellFormed) (himm : i.imm8 = 0) :
    EncodedAs i (Laws.row i.opcode).pattern i.operands := by
  rw [← commandWord_zero, ← himm]
  exact encodedAs_encode hi

/-- The checks of CTX_LOAD refuse exactly the records that break an invariant (43_control.md R164). -/
theorem legalContext_iff {k : Context} : LegalContext k ↔ ¬ contextInvalid k := by
  simp only [LegalContext, contextInvalid, not_or, not_exists, not_and, not_not, not_lt, gt_iff_lt]

@[simp] theorem Engine.context_xbufOff_toNat (g : Engine) : g.context.xbufOff.toNat = g.xbufOff.toNat :=
  BitVec.toNat_setWidth_of_le (by decide)

@[simp] theorem Engine.context_xoff_toNat (g : Engine) : g.context.xoff.toNat = g.xoff.toNat :=
  BitVec.toNat_setWidth_of_le (by decide)

/-- An engine that keeps the invariants has a legal record (43_control.md R163). -/
theorem Engine.Inv.legalContext {g : Engine} (hg : g.Inv) : LegalContext g.context := by
  obtain ⟨hxoff, hpos, ⟨hbuf, hw⟩, hcount, -⟩ := hg
  have hoff := g.xbufOff.isLt
  rw [LegalContext, Engine.context_xbufOff_toNat, Engine.context_xoff_toNat]
  exact ⟨by omega, hxoff, hcount, hpos, hbuf, hw⟩

/-- The engine's offsets hold a legal record's, so the record loaded is the record saved. -/
theorem Engine.loadContext_context {k : Context} (hk : LegalContext k) (g : Engine) :
    (g.loadContext k).context = k := by
  obtain ⟨hoff, hxoff, -⟩ := hk
  have hoff' : (k.xbufOff.setWidth 2).setWidth 8 = k.xbufOff :=
    BitVec.setWidth_setWidth_eq_self (Nat.lt_succ_of_le hoff)
  have hxoff' : (k.xoff.setWidth 5).setWidth 8 = k.xoff :=
    BitVec.setWidth_setWidth_eq_self (Nat.lt_of_le_of_lt hxoff (by decide))
  simp only [Engine.context, Engine.loadContext, hoff', hxoff']

/-- RESET gives the reset state, whatever the engine held (43_control.md R160). -/
theorem exec_reset_ends {s : State} (hs : s.engine?.isSome) :
    ∃ t, exec .reset s = .next t ∧ Ends s t resetContext 0 .none ∧ t.mem = s.mem := by
  obtain ⟨g, hg⟩ := Option.isSome_iff_exists.mp hs
  exact ⟨_, execReset_eq hg, ends_commit hg g.resetState 0 .none, rfl⟩

/-- Settles O32: the engine RESET has reset is there for the second one. -/
theorem resetRestoresTheInitialState : Obligations.ResetRestoresTheInitialState := by
  refine ⟨encodedAs_pattern (i := .reset) rfl rfl, fun s hs => ?_⟩
  obtain ⟨t, ht, hends, hmem⟩ := exec_reset_ends hs
  have ⟨hown, _⟩ := hends
  have htarget : t.engine?.isSome := by
    rw [← Option.isSome_map (f := Engine.context), hown, Option.isSome_some]
  exact ⟨t, ht, hends, hmem, exec_reset_ends htarget⟩

/-- CTX_SAVE reports the record of its engine. -/
theorem reports_ctxSave {s : State} {g : Engine} (hg : s.engine? = some g) :
    Reports .ctxSave s 0 (.context g.context) :=
  execCtxSave_eq hg

/-- Settles O35: the record of the engine, whose offsets are zero-extended. -/
theorem ctxSaveExportsTheArchitecturalState : Obligations.CtxSaveExportsTheArchitecturalState :=
  ⟨encodedAs_pattern (i := .ctxSave) rfl rfl, fun _ g hg => ⟨g.context, reports_ctxSave hg, rfl, rfl,
    g.context_xbufOff_toNat, rfl, g.context_xoff_toNat, rfl, Engine.Inv.legalContext⟩⟩

/-- CTX_LOAD of a legal record makes it the architectural state (43_control.md R164). -/
theorem exec_ctxLoad_ends {s : State} (hs : s.engine?.isSome) {k : Context} (hk : LegalContext k) :
    ∃ t, exec (.ctxLoad k) s = .next t ∧ Ends s t k 0 .none ∧ t.mem = s.mem := by
  obtain ⟨g, hg⟩ := Option.isSome_iff_exists.mp hs
  have hends := ends_commit hg (g.loadContext k) 0 .none
  rw [Engine.loadContext_context hk] at hends
  exact ⟨_, (execCtxLoad_eq hg k).trans (congrArg _ (if_neg (legalContext_iff.mp hk))), hends, rfl⟩

/-- Settles O36: the six checks refuse exactly the illegal records, and any other is loaded. -/
theorem ctxLoadImportsLegalRecordsOnly : Obligations.CtxLoadImportsLegalRecordsOnly := by
  refine fun k =>
    ⟨encodedAs_pattern (i := .ctxLoad k) rfl rfl, fun s hs => ⟨fun hk => ?_, exec_ctxLoad_ends hs⟩⟩
  obtain ⟨g, hg⟩ := Option.isSome_iff_exists.mp hs
  have hbad : contextInvalid k := not_not.mp (legalContext_iff.not.mp hk)
  exact (execCtxLoad_eq hg k).trans (congrArg _ (if_pos hbad))

/-- The host loads a legal record into an engine that exists; CTX_LOAD writes that engine only (10_state.md R35). -/
theorem issue_ctxLoad_loads {s : State} {n : Nat} {k : Context} (hn : n < s.engines.length) (hclear : ClearFor s n)
    (hk : LegalContext k) :
    ∃ t, issue n (.ctxLoad k) s = .next t ∧ t.engines[n]?.map Engine.context = some k ∧
      (∀ j, j ≠ n → t.engines[j]? = s.engines[j]?) ∧ t.mem = s.mem ∧ t.queue = s.queue := by
  obtain ⟨t, hload, ⟨hown, -, htarget, hqueue, -, hothers⟩, hmem⟩ :=
    exec_ctxLoad_ends (s := { s with target := n }) (State.engine?_isSome.mpr hn) hk
  rw [State.engine?, htarget] at hown
  exact ⟨t, (issue_eq_exec hn hclear rfl).trans hload, hown, hothers, hmem, hqueue⟩

/-- The state after CTX_SAVE on an engine that exists. -/
def State.afterSave (s : State) (inst : Nat) (g : Engine) : State :=
  State.answer { s with target := inst } 0 (.context g.context)

/-- `clone m, n` goes on to the CTX_LOAD of the record that the CTX_SAVE has answered (30_encoding.md R82). -/
theorem runLine_clone_eq_issue {s : State} {m : Nat} {g : Engine} (hg : s.engines[m]? = some g)
    (hclear : ClearFor s m) (n : Nat) :
    runLine (.clone m n) s = issue n (.ctxLoad g.context) (s.afterSave m g) := by
  obtain ⟨hm, -⟩ := List.getElem?_eq_some_iff.mp hg
  have hsave : issue m .ctxSave s = .next (s.afterSave m g) :=
    (issue_eq_exec hm hclear rfl).trans (reports_ctxSave (s := { s with target := m }) hg)
  simp [runLine, hsave, loadLast, State.lastResponse, State.afterSave]

/-- Settles O37: the record of an engine that keeps the invariants is legal, so engine `n` loads it. -/
theorem cloneCopiesOneInstanceToAnother : Obligations.CloneCopiesOneInstanceToAnother := by
  intro s m n hs hm hn hclearm hclearn
  obtain ⟨hengines, -⟩ := hs
  have hg : s.engines[m]? = some s.engines[m] := List.getElem?_eq_getElem hm
  have hlegal := Engine.Inv.legalContext (hengines _ (List.getElem_mem hm))
  obtain ⟨t, hload, hown, hframe⟩ := issue_ctxLoad_loads (s := s.afterSave m s.engines[m]) hn hclearn hlegal
  refine ⟨t, (runLine_clone_eq_issue hg hclearm n).trans hload, ?_, hframe⟩
  rw [hown, hg, Option.map_some]

/-- Settles O33: the answer is the constant 20. -/
theorem digestSizeReportsTwenty : Obligations.DigestSizeReportsTwenty := by
  refine ⟨encodedAs_pattern (i := .digestSize) rfl rfl, fun s hs => ?_⟩
  obtain ⟨g, hg⟩ := Option.isSome_iff_exists.mp hs
  exact execDigestSize_eq hg

/-- Settles O34: the answer is the name's five bytes. -/
theorem algorithmNameReportsSha1 : Obligations.AlgorithmNameReportsSha1 := by
  refine ⟨encodedAs_pattern (i := .algorithmName) rfl rfl, fun s hs => ?_⟩
  obtain ⟨g, hg⟩ := Option.isSome_iff_exists.mp hs
  exact execAlgorithmName_eq hg

end Sys2Proof.Machine
end

section
/-! ## Errors are precise and atomic, and reserved words (60_exceptions.md R200, R202) -/

namespace Sys2Proof.Machine

/-- A command that answers a next state ends in one of the three ways. -/
theorem exec_next_ending {i : Instr} {s t : State} (h : exec i s = .next t) : Ending s t := by
  obtain ⟨g, hg⟩ := exec_next_engine? h
  obtain ⟨u, hu, he⟩ := exec_ending hg i
  obtain rfl : u = t := Host.Outcome.next.inj (hu.symm.trans h)
  exact he

/-- Only a raise answers a status other than `OK`, and it changes nothing else (60_exceptions.md R200). -/
theorem Ending.eq_raise {s t : State} {r : Response} (h : Ending s t) (hr : t.responses = s.responses ++ [r])
    (hst : r.status ≠ .ok) : t = s.raise r.status := by
  cases h with
  | raised st _ =>
    obtain rfl : ⟨s.target, st, 0, .none⟩ = r := by simpa using hr
    rfl
  | reported n x =>
    obtain rfl : ⟨s.target, .ok, n, x⟩ = r := by simpa using hr
    exact absurd rfl hst
  | committed m g n x =>
    obtain rfl : ⟨s.target, .ok, n, x⟩ = r := by simpa using hr
    exact absurd rfl hst

section Issued

variable {s t : State} {tx : Transaction} {rest : List Transaction}

/-- What a step with a next state makes of the oldest transaction: an illegal word answered, or a command run. -/
theorem step_cons_next (hq : s.queue = tx :: rest) (h : step s = .next t) :
    (decodeWord tx.cmd = none ∧ t = (s.accept tx rest).raise .illegalCommand) ∨
      ∃ i, decode tx.cmd tx.operands = .command i ∧ exec i (s.accept tx rest) = .next t := by
  obtain ⟨hnil, -⟩ | ⟨tx', rest', hq', -, hmade⟩ := step_next h
  · cases hq.symm.trans hnil
  · obtain ⟨rfl, rfl⟩ := List.cons.inj (hq.symm.trans hq')
    exact hmade

/-- A step on an issued transaction ends, from the state that has accepted it, as a command does. -/
theorem step_next_ending (hq : s.queue = tx :: rest) (h : step s = .next t) : Ending (s.accept tx rest) t := by
  obtain ⟨-, rfl⟩ | ⟨i, -, hexec⟩ := step_cons_next hq h
  · exact .raised _ (by decide)
  · exact exec_next_ending hexec

end Issued

/-- Settles O45: the step ends with a raise in the state that has accepted the transaction. -/
theorem errorResponsesChangeNothing : Obligations.ErrorResponsesChangeNothing :=
  fun _ _ _ _ _ hq hstep hr hst => (step_next_ending hq hstep).eq_raise hr hst

/-- Settles O48: the decoder rejects the reserved words only, and no command that runs raises
`ILLEGAL_COMMAND`, by O49. -/
theorem illegalWordsRaiseIllegalCommand : Obligations.IllegalWordsRaiseIllegalCommand := by
  intro s tx rest hq hinst hoverlap
  refine ⟨fun hreserved => ?_, fun hlegal t r hstep hr => ?_⟩
  · exact step_illegal hq hinst hoverlap (decode_illegal_iff.mpr (decodeWord_eq_none.mpr hreserved))
  · obtain ⟨hword, -⟩ | ⟨i, -, hexec⟩ := step_cons_next hq hstep
    · exact absurd (decodeWord_eq_none.mp hword) hlegal
    · obtain ⟨-, hcommands⟩ := eachStatusHasItsCodeAndItsCommands
      obtain ⟨-, -, -, hnot, -⟩ := hcommands i _ t r hexec hr
      exact hnot

end Sys2Proof.Machine
end

section
/-! ## The reset events and the host duties (70_reset_and_hazards.md R230, R234, R235) -/

namespace Sys2Proof.Machine

open Claims

/-- Construction makes reset engines only (70_reset_and_hazards.md R230; 60_exceptions.md R211). -/
theorem State.eq_reset_of_mem_reset_engines {g : Engine} (hg : g ∈ State.reset.engines) : g = Engine.reset := by
  obtain rfl | hmem := List.mem_cons.mp hg
  · rfl
  · exact List.eq_of_mem_replicate hmem

theorem State.reset_engines_length : State.reset.engines.length = Config.nInstances :=
  congrArg Nat.succ List.length_replicate

/-- RESET_STATE committed: the addressed engine is in the reset state, whatever `g` and the memory are. -/
theorem ownState_commit_resetState {s : State} (hs : s.engine?.isSome) (g : Engine) (r : BitVec 32) (x : Data) :
    ownState (s.commit g.resetState r x) = some (resetContext, .idle) := by
  obtain ⟨g', hg'⟩ := Option.isSome_iff_exists.mp hs
  exact ownState_commit hg' g.resetState r x

/-- Settles O8: RESET and a DO_FINAL in range commit what RESET_STATE leaves; a DO_FINAL out of range raises. -/
theorem threeEventsGiveTheResetState : Obligations.ThreeEventsGiveTheResetState := by
  refine ⟨fun g hg => ?_, State.reset_engines_length, Nat.succ_pos _, fun s hs => ?_⟩
  · obtain rfl := State.eq_reset_of_mem_reset_engines hg
    exact ⟨rfl, rfl⟩
  · obtain ⟨g, hg⟩ := Option.isSome_iff_exists.mp hs
    refine ⟨⟨_, execReset_eq hg, ownState_commit_resetState hs g 0 .none⟩, fun dst doff hin => ?_,
      fun dst doff hbad => ?_⟩
    · obtain ⟨hbad, -⟩ | ⟨-, m, -, hcommit⟩ := execDoFinal_eq hg dst doff
      · exact absurd hbad hin
      · exact ⟨_, hcommit, ownState_commit_resetState (s := { s with mem := m }) hs _ 20 .none⟩
    · obtain ⟨-, hraise⟩ | ⟨hin, -⟩ := execDoFinal_eq hg dst doff
      · exact ⟨_, hraise, rfl⟩
      · exact absurd hbad hin

/-- No command refuses on an engine that exists: refusals are the fetch's. -/
theorem exec_ne_refused {s : State} (hs : s.engine?.isSome) (i : Instr) (r : Refusal) : exec i s ≠ .refused r := by
  obtain ⟨g, hg⟩ := Option.isSome_iff_exists.mp hs
  obtain ⟨t, ht, -⟩ := exec_ending hg i
  simp [ht]

/-- What the decoder rejects is not refused as an overlap. -/
theorem refusalOf_ne_overlappingCommands (why : Rejection) : refusalOf why ≠ .overlappingCommands := by
  cases why <;> simp [refusalOf]

section Issued

variable {s : State} {tx : Transaction} {rest : List Transaction}

/-- A step on one of two overlapping commands. -/
theorem step_overlapping (hq : s.queue = tx :: rest) (h1 : tx.inst < s.engines.length) (h2 : overlaps tx rest) :
    step s = .refused .overlappingCommands := by
  rw [step_cons hq, fetchHead_overlapping h1 h2, carryOut]

/-- A step on a command whose buffer another agent touched. -/
theorem step_bufferTouched {i : Instr} (hq : s.queue = tx :: rest) (h1 : tx.inst < s.engines.length)
    (h2 : ¬ overlaps tx rest) (hd : decode tx.cmd tx.operands = .command i) (hc : tx.conduct = .bufferTouched)
    (hi : hasBuffer i = true) : step s = .refused .bufferTouched := by
  rw [step_cons hq, fetchHead_command h1 h2 hd, if_pos ⟨hc, hi⟩, carryOut]

/-- Past the check for overlap, no answer of the decoder and no command leads to that refusal. -/
theorem step_ne_overlappingCommands (hq : s.queue = tx :: rest) (h1 : tx.inst < s.engines.length)
    (h2 : ¬ overlaps tx rest) : step s ≠ .refused .overlappingCommands := by
  cases hd : decode tx.cmd tx.operands with
  | illegal => simp [step_illegal hq h1 h2 hd]
  | rejected why => simp [step_rejected hq h1 h2 hd, refusalOf_ne_overlappingCommands]
  | command i =>
    rw [step_cons hq, fetchHead_command h1 h2 hd]
    split
    · simp [carryOut]
    · exact exec_ne_refused (State.engine?_isSome.mpr h1) i _

end Issued

/-- Settles O50: the refusal is the fetch's answer to `overlaps`, which `overlaps_iff` writes out. -/
theorem overlappingCommandsAreRefused : Obligations.OverlappingCommandsAreRefused := by
  intro s tx rest hq h1
  rw [← overlaps_iff]
  exact ⟨fun h => not_not.mp fun h2 => step_ne_overlappingCommands hq h1 h2 h, step_overlapping hq h1⟩

/-- Settles O51: BLOCK_UPDATE and DO_FINAL are the commands with a buffer. -/
theorem touchedBuffersAreRefused : Obligations.TouchedBuffersAreRefused := by
  intro s tx rest i hq h1 h2 hc hd hi
  refine step_bufferTouched hq h1 h2 hd hc ?_
  obtain ⟨_, _, _, rfl⟩ | ⟨_, _, rfl⟩ := hi <;> rfl

end Sys2Proof.Machine
end
